-- ==== Sys2Proof/Word.lean ====
section
/-! DEFINITION. The machine's words: a byte (memory cells, registers, operand bytes) and the 9-bit program counter. -/

namespace Sys2Proof

/-- One memory cell or register: unsigned, 8 bits (spec/10_state.md R21, R34). -/
abbrev Byte := BitVec 8

/-- The program counter's word: unsigned, 9 bits (spec/10_state.md R26). -/
abbrev PcWord := BitVec 9

/-- A valid register index, 0 to 7 (spec/10_state.md R21). -/
abbrev RegIdx := Fin 8

end Sys2Proof
end

