-- ==== Sys2Proof/Syntax.lean ====
section
/-! DEFINITION. The instruction set: one constructor per row of spec/opcode_table.json, in the table's order. -/

namespace Sys2Proof

/-- The nine instructions (spec/00_scope.md R2, spec/30_encoding.md R65). A register operand is the WHOLE operand byte,
0 to 255 (R63): a value above 7 is an instruction all the same, which raises OutOfBounds when it executes
(spec/10_state.md R25). -/
inductive Instr where
  /-- HLT: halt (R130). -/
  | hlt
  /-- LDI reg, imm8: load immediate (R100). -/
  | ldi (a imm : Byte)
  /-- PRN reg: emit a register on the output stream (R101). -/
  | prn (a : Byte)
  /-- MUL regA, regB (R112). -/
  | mul (a b : Byte)
  /-- ADD regA, regB (R111). -/
  | add (a b : Byte)
  /-- PUSH reg (R124). -/
  | push (a : Byte)
  /-- POP reg (R125). -/
  | pop (a : Byte)
  /-- CALL reg: call the subroutine whose address a register holds (R131). -/
  | call (a : Byte)
  /-- RET: return from subroutine (R132). -/
  | ret
  deriving DecidableEq, Repr

end Sys2Proof
end

