-- ==== Sys2Proof/Decode.lean ====
section
/-! DEFINITION. The opcode map, the dispatcher's decoding, the encoder, and the decoding of a byte stream
(spec/30_encoding.md). The decoder and the encoder are written from the same nine opcode bytes. -/

namespace Sys2Proof

/-! ## The opcode map (R65), in the source's binary column -/

/-- HLT, 0x01. -/
def opHLT : Byte := 0b00000001#8
/-- LDI, 0x82. -/
def opLDI : Byte := 0b10000010#8
/-- PRN, 0x47. -/
def opPRN : Byte := 0b01000111#8
/-- MUL, 0xA2. -/
def opMUL : Byte := 0b10100010#8
/-- ADD, 0xA0. -/
def opADD : Byte := 0b10100000#8
/-- PUSH, 0x45. -/
def opPUSH : Byte := 0b01000101#8
/-- POP, 0x46. -/
def opPOP : Byte := 0b01000110#8
/-- CALL, 0x50. -/
def opCALL : Byte := 0b01010000#8
/-- RET, 0x11. -/
def opRET : Byte := 0b00010001#8

/-- The nine opcode bytes. -/
def opcodes : List Byte := [opHLT, opLDI, opPRN, opMUL, opADD, opPUSH, opPOP, opCALL, opRET]

/-- `operand_count = (IR >> 6) & 0b11` (R60). -/
def operandCount (ir : Byte) : Nat := ((ir >>> 6) &&& 0b11#8).toNat

/-- The instruction's size in bytes, `operand_count + 1` (R60). -/
def instrSize (ir : Byte) : Nat := operandCount ir + 1

/-- Why bytes are no instruction. -/
inductive DecodeReject where
  /-- The opcode byte is none of the nine (R66). -/
  | unknownOpcode (ir : Byte)
  /-- A byte stream ends before the instruction does. Only `decodeStream` answers it: a step of the machine
  always has its three bytes (spec/40_execution_cycle.md R83). -/
  | missingByte
  deriving DecidableEq, Repr

/-- Dispatch: full-byte match of the opcode byte `ir`; `a` and `b` are the bytes at pc+1 and pc+2, which every step
reads and an instruction that does not use them ignores (R61, R66; spec/40_execution_cycle.md R83, R84). -/
def decode (ir a b : Byte) : Except DecodeReject Instr :=
  if ir = opHLT then .ok .hlt
  else if ir = opLDI then .ok (.ldi a b)
  else if ir = opPRN then .ok (.prn a)
  else if ir = opMUL then .ok (.mul a b)
  else if ir = opADD then .ok (.add a b)
  else if ir = opPUSH then .ok (.push a)
  else if ir = opPOP then .ok (.pop a)
  else if ir = opCALL then .ok (.call a)
  else if ir = opRET then .ok .ret
  else .error (.unknownOpcode ir)

/-- The opcode byte of an instruction (R65). -/
def opcodeOf : Instr → Byte
  | .hlt => opHLT
  | .ldi _ _ => opLDI
  | .prn _ => opPRN
  | .mul _ _ => opMUL
  | .add _ _ => opADD
  | .push _ => opPUSH
  | .pop _ => opPOP
  | .call _ => opCALL
  | .ret => opRET

/-- The operand bytes of an instruction, in memory order (R61, R71). -/
def operandsOf : Instr → List Byte
  | .hlt => []
  | .ldi a imm => [a, imm]
  | .prn a => [a]
  | .mul a b => [a, b]
  | .add a b => [a, b]
  | .push a => [a]
  | .pop a => [a]
  | .call a => [a]
  | .ret => []

/-- The bytes of an instruction: the opcode byte, then each operand as one byte (R72). -/
def encode (i : Instr) : List Byte := opcodeOf i :: operandsOf i

/-- Reads one instruction from the front of a byte stream and answers it with the rest: the length comes from the opcode
byte alone (R60, R70). -/
def decodeStream : List Byte → Except DecodeReject (Instr × List Byte)
  | [] => .error .missingByte
  | ir :: rest =>
    match decode ir (rest.getD 0 0#8) (rest.getD 1 0#8) with
    | .error e => .error e
    | .ok i =>
      if rest.length < operandCount ir then .error .missingByte
      else .ok (i, rest.drop (operandCount ir))

/-! ## The host's numbering of an instruction's bits -/

/-- Byte `k` of an instruction given as `nbits` bits `w`: byte 0 (the opcode, at pc) is bits 7..0, as the table's "fixed"
numbers it, byte 1 (at pc+1) is bits 15..8, byte 2 (at pc+2) is bits 23..16; every bit from `nbits` up is 0. DEDUCED, safe (log 7). -/
def tableByte (nbits w k : Nat) : Byte := BitVec.ofNat 8 (w % 2 ^ nbits / 256 ^ k)

/-- The three bytes a step reads for such an instruction, the byte at pc first. -/
def tableBytes (nbits w : Nat) : List Byte := [tableByte nbits w 0, tableByte nbits w 1, tableByte nbits w 2]

/-- The instruction the decoder reads from an instruction whose bits are `w`, numbered as the opcode table numbers them. -/
def decodeTableWord (nbits w : Nat) : Option Instr :=
  match decode (tableByte nbits w 0) (tableByte nbits w 1) (tableByte nbits w 2) with
  | .ok i => some i
  | .error _ => none

end Sys2Proof
end

