-- ==== Sys2Proof/Config.lean ====
section
/-! DEFINITION. The parameters of the hardware, each at the value spec/00_scope.md R8 fixes. The spec leaves no value
open, so there is no free value here. The widths MEM_WIDTH, REG_WIDTH, PC_WIDTH are the types of Word.lean. -/

namespace Sys2Proof.Config

/-- `MEM_SIZE`: the number of memory cells. -/
def memSize : Nat := 256

/-- `NREG`: the number of general registers. -/
def nReg : Nat := 8

/-- `SP_INDEX`: the register that is the stack pointer. -/
def spIndex : RegIdx := 7

/-- `SP_RESET`: the reset value of register 7. -/
def spReset : Byte := 0xF4#8

/-- `PC_RESET`: the reset value of the program counter. -/
def pcReset : PcWord := 0#9

/-- `STACK_BASE`: the stack pointer of an empty stack (spec/43_stack.md R120, R123). -/
def stackBase : Byte := 0xF4#8

/-- `STACK_LIMIT`: a push with the stack pointer equal to this overflows (spec/43_stack.md R122). -/
def stackLimit : Byte := 0#8

/-- `LOAD_BASE`: the address of the first byte of a loaded image. -/
def loadBase : Nat := 0

/-- What a memory cell that nothing has written reads as: the spec's reset contents, 0x00 (spec/10_state.md R38).
DEDUCED, safe (log 3). -/
def memReset : Byte := 0#8

/-- The reset value of R0 to R6 (spec/10_state.md R38; the spec's own decision D13). UNVERIFIED, unsafe (log 4): the source
states none. -/
def regReset : Byte := 0#8

end Sys2Proof.Config
end

