-- ==== Sys2Proof/Machine/State.lean ====
section
/-! DEFINITION. The state of the block, the reasons a step can stop, the state after reset, and the canonical form of
memory. The state is exactly the spec's tuple (mem, x, pc, run, fault, out) (spec/10_state.md R20). -/

namespace Sys2Proof.Machine

/-- The engine state (spec/10_state.md R31). -/
inductive RunState where
  /-- Steps are taken. -/
  | running
  /-- HLT ended the run; terminal. -/
  | halted
  /-- A fault ended the run; terminal. -/
  | faulted
  deriving DecidableEq, Repr

/-- The cause of a fault (spec/60_exceptions.md R140). -/
inductive Cause where
  /-- Code 1: the opcode byte is none of the nine (R141). -/
  | decodeError
  /-- Code 2: a memory address above 255 (R142). -/
  | outOfBoundsMemory
  /-- Code 3: a register operand byte above 7 (R143). -/
  | outOfBoundsRegister
  /-- Code 4: a push with SP = 0 (R144). -/
  | stackOverflow
  /-- Code 5: a pop with SP at or above the stack base (R145). -/
  | stackUnderflow
  /-- Code 6: listed by the spec and never raised (R146). DEDUCED, safe (log 9). -/
  | aluError
  deriving DecidableEq, Repr

/-- The fault record (spec/10_state.md R32). -/
structure FaultRecord where
  /-- Why. -/
  cause : Cause
  /-- The address of the faulting instruction's opcode byte. -/
  pc : PcWord
  /-- The opcode byte; none when the fetch itself faulted. -/
  opcode : Option Byte
  /-- The out-of-range memory address, the out-of-range register index, or the stack pointer; none for DecodeError. -/
  index : Option (BitVec 9)
  deriving DecidableEq, Repr

/-- The state tuple (spec/10_state.md R20). -/
structure State where
  /-- The 256 memory cells (R34), as the list of the cells that differ from the reset contents, addresses rising. -/
  mem : List Host.Cell
  /-- The eight registers (R21). -/
  x : Vector Byte 8
  /-- The program counter (R26). -/
  pc : PcWord
  /-- The engine state (R31). -/
  run : RunState
  /-- The fault record, present only in Faulted (R32). -/
  fault : Option FaultRecord
  /-- The values PRN has emitted, oldest first (R37). -/
  out : List Byte
  deriving DecidableEq, Repr

/-- Why the machine has NO step (DEDUCED, safe: log 1). A fault of the SPEC is none of these: it is a next state, in which `run` is `faulted` and
the record is in `fault` (spec/40_execution_cycle.md R88). -/
inductive Fault where
  /-- Raised by `step` alone, in Halted: "In Halted or Faulted the block has no step" (R81). Safe: the hardware has no
  step there either. -/
  | noStepHalted
  /-- Raised by `step` alone, in Faulted (R81). Safe, for the same reason. -/
  | noStepFaulted
  deriving DecidableEq, Repr

/-- Reasons an instruction has no meaning. No arm of `exec` uses one: every instruction has its meaning. -/
inductive Refusal where
  /-- The instruction named has no meaning in the model yet; answered by an arm of `exec` only. Safe. No arm answers it. -/
  | notModelled (mnemonic : String)
  deriving DecidableEq, Repr

/-- The cells from address `lo` on are in canonical form: addresses rising, inside the address space, and no cell equal
to what an unlisted address reads as. -/
def Memory.wfFrom : Nat → List Host.Cell → Bool
  | _, [] => true
  | lo, (a, v) :: m => decide (lo ≤ a) && decide (a < Config.memSize) && decide (v ≠ Config.memReset) && wfFrom (a + 1) m

/-- Memory is in its canonical form, so that equal memories are equal lists. -/
def Memory.wf (m : List Host.Cell) : Bool := Memory.wfFrom 0 m

/-- The machine right after reset (spec/10_state.md R38, spec/70_reset_and_hazards.md R160): memory all zero, R0 to R6
zero, SP = 0xF4, pc = 0, Running, no fault record, no output. -/
def State.reset : State where
  mem := []
  x := (Vector.replicate 8 Config.regReset).set Config.spIndex Config.spReset
  pc := Config.pcReset
  run := .running
  fault := none
  out := []

end Sys2Proof.Machine
end

