-- ==== Sys2Proof/Machine/Ops.lean ====
section
/-! DEFINITION. The named operations over memory, registers and the stack pointer; taking a fault; fetch, operand read
and dispatch; completing a handler. -/

namespace Sys2Proof.Machine

/-! ## Faults -/

/-- `raise <Cause>(info)` (spec/00_scope.md R10): the cause and the `index` field of the record. -/
structure Raise where
  /-- The cause. -/
  cause : Cause
  /-- The out-of-range address or register index, or the stack pointer. -/
  index : Option (BitVec 9)
  deriving DecidableEq, Repr

/-- The code of a cause (spec/60_exceptions.md R140). -/
def causeCode : Cause → Nat
  | .decodeError => 1
  | .outOfBoundsMemory => 2
  | .outOfBoundsRegister => 3
  | .stackOverflow => 4
  | .stackUnderflow => 5
  | .aluError => 6

/-- TAKING A FAULT, of whatever stage of a step: `run` becomes Faulted and the record is written, with the address of the
faulting instruction; memory, registers, pc and output stay as they were before the step (spec/40_execution_cycle.md R88,
spec/60_exceptions.md R149). There is no return from a fault (R150): only reset starts a new run. `s` is the state the
step began in. -/
def takeFault (s : State) (opcode : Option Byte) (r : Raise) : State :=
  { s with run := .faulted, fault := some { cause := r.cause, pc := s.pc, opcode := opcode, index := r.index } }

/-! ## Memory -/

/-- The byte at an address of the flat memory; an unlisted address holds the reset contents. -/
def memByte : List Host.Cell → Nat → Byte
  | [], _ => Config.memReset
  | (b, v) :: m, a => if a = b then v else memByte m a

/-- The memory with the byte at an address replaced, in canonical form again. -/
def memPut : List Host.Cell → Nat → Byte → List Host.Cell
  | [], a, v => if v = Config.memReset then [] else [(a, v)]
  | (b, w) :: m, a, v =>
    if a < b then (if v = Config.memReset then (b, w) :: m else (a, v) :: (b, w) :: m)
    else if a = b then (if v = Config.memReset then m else (b, v) :: m)
    else (b, w) :: memPut m a v

/-- The memory with a list of bytes stored at ascending addresses from `a`; a byte whose address is above 255 has no cell
to go to. -/
def putBytes : List Host.Cell → Nat → List Byte → List Host.Cell
  | m, _, [] => m
  | m, a, b :: bs => putBytes (if a > 255 then m else memPut m a b) (a + 1) bs

/-- `MemRead(addr, 1)` (spec/20_memory.md R42). -/
def memRead (m : List Host.Cell) (addr : Nat) : Except Raise Byte :=
  if addr > 255 then .error ⟨.outOfBoundsMemory, some (BitVec.ofNat 9 addr)⟩
  else .ok (memByte m addr)

/-- `MemWrite(addr, 1, v)` (spec/20_memory.md R43). -/
def memWrite (m : List Host.Cell) (addr : Nat) (v : Byte) : Except Raise (List Host.Cell) :=
  if addr > 255 then .error ⟨.outOfBoundsMemory, some (BitVec.ofNat 9 addr)⟩
  else .ok (memPut m addr v)

/-! ## Registers -/

/-- Reads a register; all eight alike (spec/10_state.md R23). -/
def readReg (s : State) (r : RegIdx) : Byte := s.x[r]

/-- Writes a register; all eight alike (spec/10_state.md R23). -/
def writeReg (s : State) (r : RegIdx) (v : Byte) : State := { s with x := s.x.set r v }

/-- The stack pointer, register 7 (spec/43_stack.md R120). -/
def readSp (s : State) : Byte := readReg s Config.spIndex

/-- Sets the stack pointer. -/
def writeSp (s : State) (v : Byte) : State := writeReg s Config.spIndex v

/-! ## The stack's bounds and its two accesses -/

/-- The bound of a push (spec/43_stack.md R122). -/
def checkPush (s : State) : Except Raise Unit :=
  if readSp s = Config.stackLimit then .error ⟨.stackOverflow, some ((readSp s).setWidth 9)⟩ else .ok ()

/-- The bound of a pop (spec/43_stack.md R123). -/
def checkPop (s : State) : Except Raise Unit :=
  if Config.stackBase ≤ readSp s then .error ⟨.stackUnderflow, some ((readSp s).setWidth 9)⟩ else .ok ()

/-- Decrements SP and then writes a byte at the new SP, the byte computed from the state AFTER the decrement
(spec/43_stack.md R121, R124; decision D14). -/
def pushByte (s : State) (v : State → Byte) : Except Raise State :=
  let s1 := writeSp s (readSp s - 1#8)
  match memWrite s1.mem (readSp s1).toNat (v s1) with
  | .error r => .error r
  | .ok m => .ok { s1 with mem := m }

/-! ## A handler's end -/

/-- What a handler returns: the state it leaves and whether it set `pc` itself (spec/40_execution_cycle.md R85). -/
structure Handled where
  /-- The state after the handler's writes. -/
  state : State
  /-- "PC already set, do not auto-advance". -/
  redirected : Bool
  deriving DecidableEq, Repr

/-- A step's outcome. -/
abbrev StepOutcome := Host.Outcome State Fault Refusal

/-- Auto-advance: `pc <- p + IR[7:6] + 1`, `p` the pc the step started with (spec/40_execution_cycle.md R86). Not reduced where a step comes here, since `p` is then at
most 253; for a larger `p` the 9-bit sum is a DESIGN CHOICE, safe for every claim about `step` (log 6). -/
def advance (p : PcWord) (ir : Byte) (s : State) : State := { s with pc := p + BitVec.ofNat 9 (instrSize ir) }

/-- The end of a step whose opcode byte is `ir` and which began in `s`: a raise takes the fault from `s`, nothing of the
handler kept (R88); a handler that did not redirect advances (R86). -/
def complete (ir : Byte) (s : State) (h : Except Raise Handled) : StepOutcome :=
  match h with
  | .error r => .next (takeFault s (some ir) r)
  | .ok d => .next (if d.redirected then d.state else advance s.pc ir d.state)

/-! ## Fetch, operand read, dispatch -/

/-- Stages 1 to 4 of a step (spec/40_execution_cycle.md R82, R83, R84, R89): read the opcode byte, read BOTH following
bytes whatever the opcode, decode. A fault comes with the opcode byte if the fetch succeeded (R88). -/
def fetchDecode (s : State) : Except (Option Byte × Raise) Instr :=
  match memRead s.mem s.pc.toNat with
  | .error r => .error (none, r)
  | .ok ir =>
    match memRead s.mem (s.pc.toNat + 1) with
    | .error r => .error (some ir, r)
    | .ok a =>
      match memRead s.mem (s.pc.toNat + 2) with
      | .error r => .error (some ir, r)
      | .ok b =>
        match decode ir a b with
        | .error _ => .error (some ir, ⟨.decodeError, none⟩)
        | .ok i => .ok i

end Sys2Proof.Machine
end

