-- ==== Sys2Proof/WellFormed.lean ====
section
/-! DEFINITION. Which instructions name only registers that exist. -/

namespace Sys2Proof

/-- The operand byte names one of the eight registers: "Only 0 to 7 are valid" (spec/30_encoding.md R63). -/
def validReg (a : Byte) : Bool := a.toNat < Config.nReg

/-- Every register operand names a register. The decoder ACCEPTS an instruction that is not well formed, since the
operand bytes play no part in decoding (spec/30_encoding.md R66, R69); executing it raises OutOfBounds(register)
(spec/10_state.md R25). DEDUCED, safe (log 8). -/
def WellFormed : Instr → Bool
  | .hlt => true
  | .ldi a _ => validReg a
  | .prn a => validReg a
  | .mul a b => validReg a && validReg b
  | .add a b => validReg a && validReg b
  | .push a => validReg a
  | .pop a => validReg a
  | .call a => validReg a
  | .ret => true

end Sys2Proof
end

