-- ==== Sys2Proof/Machine/Operands.lean ====
section
/-! DEFINITION. The operand forms: a register operand and the one immediate (spec/30_encoding.md R63, R64). -/

namespace Sys2Proof.Machine

/-- A register operand: the whole byte is the index, nothing masked; above 7 it raises OutOfBounds(register, a)
(spec/10_state.md R25, spec/60_exceptions.md R143). -/
def regOperand (a : Byte) : Except Raise RegIdx :=
  if h : a.toNat < 8 then .ok ⟨a.toNat, h⟩ else .error ⟨.outOfBoundsRegister, some (a.setWidth 9)⟩

/-- LDI's imm8: written as it is, not extended, scaled or shifted (spec/30_encoding.md R64). -/
def immOperand (b : Byte) : Byte := b

end Sys2Proof.Machine
end

