-- ==== Sys2Proof/Machine/Alu.lean ====
section
/-! DEFINITION. The embedded ALU and its two instructions: ADD, MUL (spec/42_alu.md). No flag is computed anywhere: the
block has no flags register (spec/10_state.md R30). -/

namespace Sys2Proof.Machine

/-- The ALU's operations, closed: no other operation can be asked of it, so there is no ALUError transition
(R110; spec/60_exceptions.md R146). -/
inductive AluOp where
  /-- Sum. -/
  | add
  /-- Product. -/
  | mul
  deriving DecidableEq, Repr

/-- The ALU function (R110): the exact sum or product of the unsigned values, modulo 256. -/
def alu (op : AluOp) (va vb : Byte) : Byte :=
  match op with
  | .add => BitVec.ofNat 8 (va.toNat + vb.toNat)
  | .mul => BitVec.ofNat 8 (va.toNat * vb.toNat)

/-- The handler ADD and MUL share: operand a is checked before operand b (R111, R112). -/
def handleAlu (op : AluOp) (a b : Byte) (s : State) : Except Raise Handled := do
  let ra ← regOperand a
  let rb ← regOperand b
  return { state := writeReg s ra (alu op (readReg s ra) (readReg s rb)), redirected := false }

/-- ADD regA, regB (R111). -/
def execAdd (a b : Byte) (s : State) : StepOutcome := complete opADD s (handleAlu .add a b s)

/-- MUL regA, regB (R112). -/
def execMul (a b : Byte) (s : State) : StepOutcome := complete opMUL s (handleAlu .mul a b s)

end Sys2Proof.Machine
end

