-- ==== Sys2Proof/Machine/Control.lean ====
section
/-! DEFINITION. Control transfer and halt: HLT, CALL, RET (spec/44_control_transfer.md). -/

namespace Sys2Proof.Machine

/-- `pc <- target`, the target an 8-bit value (spec/10_state.md R28). -/
def setPc (s : State) (target : Byte) : State := { s with pc := target.setWidth 9 }

/-- The return address of a CALL at `p`: the byte `p + 2` (R131). It fits in a byte wherever a step executes a CALL,
since one at 254 or 255 has faulted in its operand read (spec/40_execution_cycle.md R83). For a pc above 253, where no step
comes here, the low 8 bits: DESIGN CHOICE, safe for every claim about `step` (log 6). -/
def returnAddress (p : PcWord) : Byte := BitVec.ofNat 8 (p.toNat + 2)

/-- HLT's handler (R130); it does not redirect, so pc advances by 1 (R87). -/
def handleHlt (s : State) : Except Raise Handled :=
  .ok { state := { s with run := .halted }, redirected := false }

/-- CALL's handler (R131): the target register is read after SP is decremented, so CALL R7 jumps to the decremented SP. -/
def handleCall (a : Byte) (s : State) : Except Raise Handled := do
  let ra ← regOperand a
  checkPush s
  let s1 ← pushByte s (fun _ => returnAddress s.pc)
  return { state := setPc s1 (readReg s1 ra), redirected := true }

/-- RET's handler (R132). -/
def handleRet (s : State) : Except Raise Handled := do
  checkPop s
  let v ← memRead s.mem (readSp s).toNat
  let s1 := setPc s v
  return { state := writeSp s1 (readSp s1 + 1#8), redirected := true }

/-- HLT (R130). -/
def execHlt (s : State) : StepOutcome := complete opHLT s (handleHlt s)

/-- CALL reg (R131). -/
def execCall (a : Byte) (s : State) : StepOutcome := complete opCALL s (handleCall a s)

/-- RET (R132). -/
def execRet (s : State) : StepOutcome := complete opRET s (handleRet s)

end Sys2Proof.Machine
end

