-- ==== Sys2Proof/Machine/RegisterOutput.lean ====
section
/-! DEFINITION. Register load and output: LDI, PRN (spec/41_register_and_output.md). -/

namespace Sys2Proof.Machine

/-- `emit(v)`: appends a value to the output stream (spec/00_scope.md R10, spec/10_state.md R37). -/
def emit (s : State) (v : Byte) : State := { s with out := s.out ++ [v] }

/-- LDI's handler (R100). -/
def handleLdi (a b : Byte) (s : State) : Except Raise Handled := do
  let ra ← regOperand a
  return { state := writeReg s ra (immOperand b), redirected := false }

/-- PRN's handler (R101). -/
def handlePrn (a : Byte) (s : State) : Except Raise Handled := do
  let ra ← regOperand a
  return { state := emit s (readReg s ra), redirected := false }

/-- LDI reg, imm8 (R100). -/
def execLdi (a imm : Byte) (s : State) : StepOutcome := complete opLDI s (handleLdi a imm s)

/-- PRN reg (R101). -/
def execPrn (a : Byte) (s : State) : StepOutcome := complete opPRN s (handlePrn a s)

end Sys2Proof.Machine
end

