-- ==== Sys2Proof/Machine/Stack.lean ====
section
/-! DEFINITION. The stack instructions: PUSH, POP (spec/43_stack.md). Statements of a handler run in the order the spec
writes them, each seeing the writes before it (spec/00_scope.md R10). -/

namespace Sys2Proof.Machine

/-- PUSH's handler (R124): the register is read after SP is decremented, so PUSH R7 stores the decremented SP. -/
def handlePush (a : Byte) (s : State) : Except Raise Handled := do
  let ra ← regOperand a
  checkPush s
  let s1 ← pushByte s (fun t => readReg t ra)
  return { state := s1, redirected := false }

/-- POP's handler (R125): SP is incremented after the register is written, so POP R7 ends with the popped byte plus 1. -/
def handlePop (a : Byte) (s : State) : Except Raise Handled := do
  let ra ← regOperand a
  checkPop s
  let v ← memRead s.mem (readSp s).toNat
  let s1 := writeReg s ra v
  return { state := writeSp s1 (readSp s1 + 1#8), redirected := false }

/-- PUSH reg (R124). -/
def execPush (a : Byte) (s : State) : StepOutcome := complete opPUSH s (handlePush a s)

/-- POP reg (R125). -/
def execPop (a : Byte) (s : State) : StepOutcome := complete opPOP s (handlePop a s)

end Sys2Proof.Machine
end

