-- ==== Sys2Proof/Machine/Step.lean ====
section
/-! DEFINITION. One step of the machine (spec/40_execution_cycle.md R89), and where a step fetches. -/

namespace Sys2Proof.Machine

/-- One step. In Halted and Faulted there is none (R81). In Running: fetch, operand read and dispatch, whose fault is
taken from the state the step began in (R88), then the instruction. A fault of the spec is a next state; only "no step" is
an outcome of kind fault (DEDUCED, safe: log 1). -/
def step (s : State) : Host.Outcome State Fault Refusal :=
  match s.run with
  | .halted => .fault .noStepHalted
  | .faulted => .fault .noStepFaulted
  | .running =>
    match fetchDecode s with
    | .error e => .next (takeFault s e.1 e.2)
    | .ok i => exec i s

/-- `s` with an instruction's three bytes (`tableBytes`) at pc, pc+1 and pc+2, where `step` fetches; a byte whose address
is above 255 has no cell to go to. Nothing else changes: it stands for the host's image load (DEDUCED, safe: log 5). -/
def State.withFetchWord (s : State) (nbits w : Nat) : State :=
  { s with mem := putBytes s.mem s.pc.toNat (tableBytes nbits w) }

end Sys2Proof.Machine
end

