-- ==== Sys2Proof/Machine/HostInterface.lean ====
section
/-! DEFINITION. The block's interfaces to the host (spec/00_scope.md R12) and the host-side duties the spec states so
that end-to-end behaviour can be checked: the image load and its file format, status, exit statuses, output text, the
debug read, the text of an instruction. None of it is part of a step. -/

namespace Sys2Proof.Machine

/-! ## Image load (spec/70_reset_and_hazards.md R161) -/

/-- Why a load fails, so that no run starts (R163). -/
inductive LoadError where
  /-- The file is missing or unreadable. -/
  | fileUnreadable
  /-- A retained line is not a binary literal. -/
  | nonBinary
  /-- A literal's value is above 255. -/
  | valueTooLarge
  /-- More than 256 bytes. -/
  | imageTooLong
  deriving DecidableEq, Repr

/-- The host writes an image into memory from address 0 (R161); registers, pc and run do not change. -/
def loadImage (s : State) (img : List Byte) : Except LoadError State :=
  if img.length > Config.memSize then .error .imageTooLong
  else .ok { s with mem := putBytes s.mem Config.loadBase img }

/-! ## Program file text (R162) -/

/-- The lines of a text; a line ends at a newline character (PRESUMED, unsafe for text alone: log 11). -/
def splitLines : List Char → List (List Char)
  | [] => [[]]
  | c :: cs =>
    if c = '\n' then [] :: splitLines cs
    else
      match splitLines cs with
      | [] => [[c]]
      | l :: ls => (c :: l) :: ls

/-- A text without the white space at its two ends. Which characters are white space is PRESUMED, unsafe for text alone
(log 10). -/
def trimSpace (l : List Char) : List Char :=
  ((l.dropWhile Char.isWhitespace).reverse.dropWhile Char.isWhitespace).reverse

/-- What a line holds once its comment ("`#` and everything after it") and the white space around it are gone. -/
def retainedText (line : List Char) : List Char := trimSpace (line.takeWhile (· ≠ '#'))

/-- The value of a base-2 literal read from the left, `acc` the value so far; none where a character is no binary digit.
A literal may have any number of digits from 1 up (DEDUCED from R163, unsafe for text alone: log 10). -/
def binaryValue : Nat → List Char → Option Nat
  | acc, [] => some acc
  | acc, c :: cs =>
    if c = '0' then binaryValue (2 * acc) cs
    else if c = '1' then binaryValue (2 * acc + 1) cs
    else none

/-- One line: no byte for a blank or comment-only line, else the byte of its literal (R162, R163). -/
def parseLine (line : List Char) : Except LoadError (Option Byte) :=
  let t := retainedText line
  if t = [] then .ok none
  else
    match binaryValue 0 t with
    | none => .error .nonBinary
    | some v => if v > 255 then .error .valueTooLarge else .ok (some (BitVec.ofNat 8 v))

/-- The image of a file given as lines. -/
def parseLines : List (List Char) → Except LoadError (List Byte)
  | [] => .ok []
  | l :: ls => do
    let b ← parseLine l
    let bs ← parseLines ls
    return b.toList ++ bs

/-- The image a program file holds (R162). -/
def parseProgram (text : List Char) : Except LoadError (List Byte) := parseLines (splitLines text)

/-- Reset, then the image load from a file (none: missing or unreadable), before the first step (R160, R165). After a
failed load the block stays in its reset state and the run does not start (R163): the second part is then the error. -/
def boot (file : Option (List Char)) : State × Option LoadError :=
  match file with
  | none => (State.reset, some .fileUnreadable)
  | some text =>
    match parseProgram text with
    | .error e => (State.reset, some e)
    | .ok img =>
      match loadImage State.reset img with
      | .error e => (State.reset, some e)
      | .ok s => (s, none)

/-! ## Status and exit statuses (spec/00_scope.md R12, spec/60_exceptions.md R157) -/

/-- The status interface: the run state and, when Faulted, the fault record. -/
def status (s : State) : RunState × Option FaultRecord := (s.run, s.fault)

/-- How a use of the source's CLI ends. -/
inductive CliEnd where
  /-- Wrong number of arguments. -/
  | usage
  /-- The load failed. -/
  | loadFailed (e : LoadError)
  /-- The run stands at this state. -/
  | ranTo (s : State)

/-- The CLI's exit status; none while the run has not ended (R157; the spec's own decision D22 for every fault other than
DecodeError and for LoadError). A file that cannot be read gives 2, not LoadError's 1 (DEDUCED, unsafe for the host's status
alone: log 12). -/
def exitStatus : CliEnd → Option Nat
  | .usage => some 1
  | .loadFailed .fileUnreadable => some 2
  | .loadFailed _ => some 1
  | .ranTo s =>
    match s.run with
    | .running => none
    | .halted => some 0
    | .faulted => some 1

/-! ## Output text (spec/60_exceptions.md R158) -/

/-- The decimal digit of a number below 10. -/
def digitChar (d : Nat) : Char := Char.ofNat (48 + d)

/-- The decimal numeral of a byte: no leading zeros, no sign. -/
def decimal (v : Byte) : List Char :=
  let n := v.toNat
  if n < 10 then [digitChar n]
  else if n < 100 then [digitChar (n / 10), digitChar (n % 10)]
  else [digitChar (n / 100), digitChar (n / 10 % 10), digitChar (n % 10)]

/-- The text the host writes for an output stream: one value per line, oldest first. The line end is a newline character
(PRESUMED, unsafe for text alone: log 11). -/
def outputText (out : List Byte) : List Char := out.flatMap (fun v => decimal v ++ ['\n'])

/-- A byte as an 8-character binary literal, most significant bit first: a line of a program file
(spec/70_reset_and_hazards.md R162). -/
def binaryText (v : Byte) : List Char :=
  [7, 6, 5, 4, 3, 2, 1, 0].map (fun k => if v.getLsbD k then '1' else '0')

/-- The opcode as the reference's DecodeError diagnostic writes it; none where the run did not end in a DecodeError. R157
says "prints the opcode in binary" and no more: 8 digits, leading zeros kept, most significant bit first, no prefix is the
model's DESIGN CHOICE, unsafe for the diagnostic's text alone (log 14). -/
def diagnosticOpcode (s : State) : Option (List Char) :=
  match s.fault with
  | none => none
  | some r => if r.cause = .decodeError then r.opcode.map binaryText else none

/-! ## Debug read (spec/60_exceptions.md R155) -/

/-- The debug read of a memory byte: no value above 255. -/
def debugMem (s : State) (addr : Nat) : Option Byte := if addr > 255 then none else some (memByte s.mem addr)

/-- The trace printer's dump: pc, the three bytes at pc, pc+1 and pc+2, and all registers. -/
structure DebugDump where
  /-- The program counter. -/
  pc : PcWord
  /-- The next three memory bytes. -/
  bytes : List (Option Byte)
  /-- The registers R0 to R7. -/
  regs : Vector Byte 8
  deriving DecidableEq, Repr

/-- The trace printer's read; it changes no state. -/
def debugDump (s : State) : DebugDump where
  pc := s.pc
  bytes := [0, 1, 2].map (fun k => debugMem s (s.pc.toNat + k))
  regs := s.x

/-! ## The text of an instruction (spec/00_scope.md R11, spec/30_encoding.md R71) -/

/-- A register operand's text. -/
def regText (a : Byte) : List Char := 'R' :: decimal a

/-- The assembly text of an instruction: its mnemonic, then its operands in memory order separated by commas; an immediate
in decimal (DESIGN CHOICE, safe: notation alone, log 13). -/
def asmText : Instr → List Char
  | .hlt => "HLT".toList
  | .ldi a imm => "LDI ".toList ++ regText a ++ ", ".toList ++ decimal imm
  | .prn a => "PRN ".toList ++ regText a
  | .mul a b => "MUL ".toList ++ regText a ++ ", ".toList ++ regText b
  | .add a b => "ADD ".toList ++ regText a ++ ", ".toList ++ regText b
  | .push a => "PUSH ".toList ++ regText a
  | .pop a => "POP ".toList ++ regText a
  | .call a => "CALL ".toList ++ regText a
  | .ret => "RET".toList

end Sys2Proof.Machine
end

