-- ==== Sys2Proof/Safety.lean ====
section
/-! DEFINITION. The terms statements use: the invariant of a state, the states in which a handler runs, a run, and what
"unchanged" means. -/

namespace Sys2Proof.Machine

/-- The states in which a step gets as far as executing an instruction: Running (spec/40_execution_cycle.md R81), with all
three bytes in memory (R83). -/
abbrev Executing (s : State) : Prop := s.run = .running ∧ s.pc.toNat + 2 ≤ 255

/-- A fault record says what spec/60_exceptions.md R140's row for its cause says, of the state `s` the fault was taken in
(the Faulted state it leaves differs from it in `run` and `fault` alone): the record's pc and opcode byte; for
OutOfBounds(register) the index is the first register operand byte above 7 (R143); for the two stack faults it is SP. -/
def FaultRecord.Describes (r : FaultRecord) (s : State) : Prop :=
  let ir := memByte s.mem s.pc.toNat
  let a := memByte s.mem (s.pc.toNat + 1)
  let b := memByte s.mem (s.pc.toNat + 2)
  let sp := readReg s 7
  r.pc = s.pc ∧ r.opcode = (if 255 < s.pc.toNat then none else some ir) ∧
  match r.cause with
  | .decodeError =>
    s.pc.toNat ≤ 253 ∧ ir ∉ [0x01#8, 0x82#8, 0x47#8, 0xA2#8, 0xA0#8, 0x45#8, 0x46#8, 0x50#8, 0x11#8] ∧ r.index = none
  | .outOfBoundsMemory => 254 ≤ s.pc.toNat ∧ s.pc.toNat ≤ 256 ∧ r.index = some 256#9
  | .outOfBoundsRegister =>
    s.pc.toNat ≤ 253 ∧
    ((ir ∈ [0x82#8, 0x47#8, 0xA0#8, 0xA2#8, 0x45#8, 0x46#8, 0x50#8] ∧ 7 < a.toNat ∧ r.index = some (a.setWidth 9)) ∨
     (ir ∈ [0xA0#8, 0xA2#8] ∧ a.toNat ≤ 7 ∧ 7 < b.toNat ∧ r.index = some (b.setWidth 9)))
  | .stackOverflow => s.pc.toNat ≤ 253 ∧ ir ∈ [0x45#8, 0x50#8] ∧ sp = 0#8 ∧ r.index = some (sp.setWidth 9)
  | .stackUnderflow => s.pc.toNat ≤ 253 ∧ ir ∈ [0x46#8, 0x11#8] ∧ 0xF4 ≤ sp.toNat ∧ r.index = some (sp.setWidth 9)
  | .aluError => False

/-- The invariant of the machine: memory in canonical form; pc at most 256 (spec/10_state.md R28); a fault record exactly
in Faulted (R32), describing the state it stands in, whose memory, registers and pc are those the fault was taken in. -/
structure State.Inv (s : State) : Prop where
  /-- Memory is canonical. -/
  mem : Memory.wf s.mem = true
  /-- The pc never wraps and never passes 256. -/
  pc : s.pc.toNat ≤ 256
  /-- A record exactly when Faulted. -/
  record : s.fault.isSome = true ↔ s.run = .faulted
  /-- The record is precise. -/
  describes : ∀ r, s.fault = some r → r.Describes s

/-- The register operand bytes of an instruction, in memory order (spec/30_encoding.md R61). -/
def regOperandsOf : Instr → List Byte
  | .hlt => []
  | .ldi a _ => [a]
  | .prn a => [a]
  | .mul a b => [a, b]
  | .add a b => [a, b]
  | .push a => [a]
  | .pop a => [a]
  | .call a => [a]
  | .ret => []

/-- Every byte of memory reads the same in both states. -/
def SameMemory (s t : State) : Prop := ∀ addr, memByte t.mem addr = memByte s.mem addr

/-- Every byte of memory but the one at `at_` reads the same in both states. -/
def SameMemoryBut (at_ : Nat) (s t : State) : Prop := ∀ addr, addr ≠ at_ → memByte t.mem addr = memByte s.mem addr

/-- Every register outside `ds` holds the same in both states. -/
def SameRegsBut (ds : List RegIdx) (s t : State) : Prop := ∀ q, q ∉ ds → readReg t q = readReg s q

/-- The engine state and the fault record are the same in both states. -/
def SameStatus (s t : State) : Prop := t.run = s.run ∧ t.fault = s.fault

/-- The state in which a step that began in `s` ends when it raises a fault: only `run` and `fault` change
(spec/40_execution_cycle.md R88). -/
def FaultedWith (s : State) (cause : Cause) (opcode : Option Byte) (index : Option (BitVec 9)) : State :=
  { s with run := .faulted, fault := some { cause := cause, pc := s.pc, opcode := opcode, index := index } }

end Sys2Proof.Machine
end

