-- ==== Sys2Proof/Safety/Pseudocode.lean ====
section
/-! DEFINITION. The spec's own pseudocode for one step (spec/40_execution_cycle.md R89 with the handlers of files 41 to 44),
transcribed in one piece over flat arrays of natural numbers, "mod 256" written only where the spec writes it
(spec/00_scope.md R10). It is what the model is compared with; nothing in the model calls it. -/

namespace Sys2Proof.Machine

/-- The state tuple with every value a natural number and every array a function. -/
structure FlatState where
  /-- Memory. -/
  mem : Nat → Nat
  /-- Registers. -/
  x : Nat → Nat
  /-- Program counter. -/
  pc : Nat
  /-- Engine state. -/
  run : RunState
  /-- Fault record: cause code, pc, opcode, index. -/
  fault : Option (Nat × Nat × Option Nat × Option Nat)
  /-- Output stream. -/
  out : List Nat

/-- `f[k] <- v`. -/
def setAt (f : Nat → Nat) (k v : Nat) : Nat → Nat := fun j => if j = k then v else f j

/-- What a state of the model is as a flat state. -/
def State.flat (s : State) : FlatState where
  mem := fun a => (memByte s.mem a).toNat
  x := fun r => if h : r < 8 then (readReg s ⟨r, h⟩).toNat else 0
  pc := s.pc.toNat
  run := s.run
  fault := s.fault.map fun r =>
    (causeCode r.cause, r.pc.toNat, r.opcode.map BitVec.toNat, r.index.map BitVec.toNat)
  out := s.out.map BitVec.toNat

/-- `raise`: the fault commit of R88. -/
def FlatState.raise (s : FlatState) (code : Nat) (opcode index : Option Nat) : FlatState :=
  { s with run := .faulted, fault := some (code, s.pc, opcode, index) }

/-- The handlers' part of R89 and the advance, for opcode byte `ir` and operand bytes `a`, `b`. -/
def FlatState.execute (s : FlatState) (ir a b : Nat) : FlatState :=
  let p := s.pc
  let sp := s.x 7
  let bad (r : Nat) := s.raise 3 (some ir) (some r)
  match ir with
  | 0x01 => { s with run := .halted, pc := p + 1 }
  | 0x82 => if a > 7 then bad a else { s with x := setAt s.x a b, pc := p + 3 }
  | 0x47 => if a > 7 then bad a else { s with out := s.out ++ [s.x a], pc := p + 2 }
  | 0xA2 =>
    if a > 7 then bad a else if b > 7 then bad b
    else { s with x := setAt s.x a (s.x a * s.x b % 256), pc := p + 3 }
  | 0xA0 =>
    if a > 7 then bad a else if b > 7 then bad b
    else { s with x := setAt s.x a ((s.x a + s.x b) % 256), pc := p + 3 }
  | 0x45 =>
    if a > 7 then bad a else if sp = 0 then s.raise 4 (some ir) (some sp)
    else
      let x' := setAt s.x 7 (sp - 1)
      { s with x := x', mem := setAt s.mem (x' 7) (x' a), pc := p + 2 }
  | 0x46 =>
    if a > 7 then bad a else if sp ≥ 0xF4 then s.raise 5 (some ir) (some sp)
    else
      let x' := setAt s.x a (s.mem sp)
      { s with x := setAt x' 7 ((x' 7 + 1) % 256), pc := p + 2 }
  | 0x50 =>
    if a > 7 then bad a else if sp = 0 then s.raise 4 (some ir) (some sp)
    else
      let x' := setAt s.x 7 (sp - 1)
      { s with x := x', mem := setAt s.mem (x' 7) (p + 2), pc := x' a }
  | 0x11 =>
    if sp ≥ 0xF4 then s.raise 5 (some ir) (some sp)
    else { s with pc := s.mem sp, x := setAt s.x 7 (sp + 1) }
  | _ => s.raise 1 (some ir) none

/-- `Step(s)` of R89; none where there is no step (R81). -/
def FlatState.step (s : FlatState) : Option FlatState :=
  if s.run ≠ .running then none
  else
    let p := s.pc
    if p > 255 then some (s.raise 2 none (some p))
    else if p + 1 > 255 then some (s.raise 2 (some (s.mem p)) (some (p + 1)))
    else if p + 2 > 255 then some (s.raise 2 (some (s.mem p)) (some (p + 2)))
    else some (s.execute (s.mem p) (s.mem (p + 1)) (s.mem (p + 2)))

end Sys2Proof.Machine
end

