-- ==== Sys2Proof/Certificates/Slice0/Obligations.lean ====
section
/-! DEFINITION. The statements for the provers, each from numbered rules of the spec. Opcode bytes and bounds are written
as the spec writes them, not by the model's names. -/

open Sys2Proof Sys2Proof.Machine

/-! ## Encoding and decoding (spec/30_encoding.md) -/

/-- The nine opcode bytes of R65, in the source's binary column, each decode to their instruction with the operand bytes as
R61's formats lay them out. -/
def Obligations.OpcodeMapWordsDecode : Prop :=
  decode 0b00000001#8 0x12#8 0x34#8 = .ok .hlt ∧
  decode 0b10000010#8 0x03#8 0x34#8 = .ok (.ldi 3#8 0x34#8) ∧
  decode 0b01000111#8 0x02#8 0x34#8 = .ok (.prn 2#8) ∧
  decode 0b10100010#8 0x04#8 0x05#8 = .ok (.mul 4#8 5#8) ∧
  decode 0b10100000#8 0x06#8 0x01#8 = .ok (.add 6#8 1#8) ∧
  decode 0b01000101#8 0x07#8 0x34#8 = .ok (.push 7#8) ∧
  decode 0b01000110#8 0x01#8 0x34#8 = .ok (.pop 1#8) ∧
  decode 0b01010000#8 0xFF#8 0x34#8 = .ok (.call 0xFF#8) ∧
  decode 0b00010001#8 0x12#8 0x34#8 = .ok .ret

/-- R60, R61, R72: an instruction's bytes, followed by whatever the memory holds after them, decode to it; for every
instruction at every operand byte, those that name no register included. -/
def Obligations.EncodedInstructionDecodesToItself : Prop :=
  ∀ (i : Instr) (ir a b : Byte), encode i <+: [ir, a, b] → decode ir a b = .ok i

/-- R61, R72: where three bytes decode, the instruction's bytes are the first of them, as many as the opcode byte's two
highest bits say. -/
def Obligations.DecodedInstructionEncodesBack : Prop :=
  ∀ (ir a b : Byte) (i : Instr), decode ir a b = .ok i → encode i = [ir, a, b].take (ir.toNat / 64 + 1)

/-- R66, R69, R70: a byte is rejected, by name, exactly if it is none of the nine; those are 247 bytes, 0x00 and every byte
from 0xC0 up among them; the operand bytes play no part. -/
def Obligations.UnknownOpcodesAreRejected : Prop :=
  (∀ ir a b : Byte, decode ir a b = .error (.unknownOpcode ir) ↔
    ir ∉ [0x01#8, 0x82#8, 0x47#8, 0xA2#8, 0xA0#8, 0x45#8, 0x46#8, 0x50#8, 0x11#8]) ∧
  ((List.range 256).filter fun n => (decode (BitVec.ofNat 8 n) 0#8 0#8).toOption.isNone).length = 247 ∧
  (∀ ir a b : Byte, ir = 0x00#8 ∨ 0xC0 ≤ ir.toNat → decode ir a b = .error (.unknownOpcode ir))

/-- R60: the number of operand bytes is the opcode's two highest bits, so an instruction has `operand_count + 1` bytes, 1, 2
or 3, the opcode first. -/
def Obligations.LengthIsTwoHighestOpcodeBitsPlusOne : Prop :=
  ∀ i : Instr, (encode i).head? = some (opcodeOf i) ∧
    (encode i).length = (opcodeOf i).toNat / 64 + 1 ∧ 1 ≤ (encode i).length ∧ (encode i).length ≤ 3

/-- R70: one instruction is read from the front of a byte stream by its opcode byte's length, leaving the rest; a stream
that ends inside an instruction is rejected. -/
def Obligations.StreamDecodingTakesOneInstruction : Prop :=
  (∀ (i : Instr) (rest : List Byte), decodeStream (encode i ++ rest) = .ok (i, rest)) ∧
  (∀ (i : Instr) (n : Nat), n < (encode i).length → decodeStream ((encode i).take n) = .error .missingByte)

/-! ## The step (spec/40_execution_cycle.md) -/

/-- R82, R83, R84, R85: in Running, where the bytes at pc, pc+1 and pc+2 decode to an instruction, the step is that
instruction's. Nothing is added around it. -/
def Obligations.StepRunsDecodedInstruction : Prop :=
  ∀ (s : State) (i : Instr), Executing s →
    decode (memByte s.mem s.pc.toNat) (memByte s.mem (s.pc.toNat + 1)) (memByte s.mem (s.pc.toNat + 2)) = .ok i →
    step s = exec i s

/-- Where an instruction's encoding stands in memory at pc, below address 254, the step runs that instruction, whatever
the bytes after it are. -/
def Obligations.StepRunsInstructionEncodedAtPc : Prop :=
  ∀ (s : State) (i : Instr), Executing s →
    (∀ k (h : k < (encode i).length), memByte s.mem (s.pc.toNat + k) = (encode i)[k]) → step s = exec i s

/-- An instruction given as a table word, stored where the step fetches, is the instruction the next step runs. Where its
bytes go and how they are numbered are log entries 5 and 7. -/
def Obligations.FetchWordRunsAsTheNextInstruction : Prop :=
  ∀ (s : State) (nbits w : Nat) (i : Instr), Memory.wf s.mem = true → Executing s →
    decodeTableWord nbits w = some i → step (s.withFetchWord nbits w) = exec i (s.withFetchWord nbits w)

/-- R82, R83, R142: a fetch above 255 faults with no opcode; an opcode byte at 254 or 255, WHATEVER it is, faults in the
operand read with recorded address 256. Eager operand reads are the spec's own decision D5; pc above 255 is reached as
256 only. -/
def Obligations.ReadsAboveMemoryFault : Prop :=
  ∀ s : State, s.run = .running →
    (255 < s.pc.toNat → step s = .next (FaultedWith s .outOfBoundsMemory none (some s.pc))) ∧
    (s.pc.toNat = 254 ∨ s.pc.toNat = 255 →
      step s = .next (FaultedWith s .outOfBoundsMemory (some (memByte s.mem s.pc.toNat)) (some 256#9)))

/-- R84, R141: an opcode byte that is none of the nine stops the run with DecodeError, the record holding the byte and its
address. -/
def Obligations.UnknownOpcodeStopsTheRun : Prop :=
  ∀ s : State, Executing s →
    memByte s.mem s.pc.toNat ∉ [0x01#8, 0x82#8, 0x47#8, 0xA2#8, 0xA0#8, 0x45#8, 0x46#8, 0x50#8, 0x11#8] →
    step s = .next { s with
      run := .faulted
      fault := some { cause := .decodeError, pc := s.pc, opcode := some (memByte s.mem s.pc.toNat), index := none } }

/-- R89, R148: the first failing check, in the order fetch, operand reads, decode, register a, register b, stack bound,
decides the fault, and where none fails the step completes without one. The order of the handler checks is the spec's own
decision D11. -/
def Obligations.FirstFailingCheckDecides : Prop :=
  ∀ s : State, s.run = .running →
    let ir := memByte s.mem s.pc.toNat
    let a := memByte s.mem (s.pc.toNat + 1)
    let b := memByte s.mem (s.pc.toNat + 2)
    let sp := readReg s 7
    ∃ t, step s = .next t ∧
      if 255 < s.pc.toNat then t = FaultedWith s .outOfBoundsMemory none (some s.pc)
      else if 253 < s.pc.toNat then t = FaultedWith s .outOfBoundsMemory (some ir) (some 256#9)
      else if ir ∉ [0x01#8, 0x82#8, 0x47#8, 0xA2#8, 0xA0#8, 0x45#8, 0x46#8, 0x50#8, 0x11#8] then
        t = FaultedWith s .decodeError (some ir) none
      else if ir ∉ [0x01#8, 0x11#8] ∧ 7 < a.toNat then
        t = FaultedWith s .outOfBoundsRegister (some ir) (some (a.setWidth 9))
      else if ir ∈ [0xA0#8, 0xA2#8] ∧ 7 < b.toNat then
        t = FaultedWith s .outOfBoundsRegister (some ir) (some (b.setWidth 9))
      else if ir ∈ [0x45#8, 0x50#8] ∧ sp = 0#8 then t = FaultedWith s .stackOverflow (some ir) (some 0#9)
      else if ir ∈ [0x46#8, 0x11#8] ∧ 0xF4 ≤ sp.toNat then
        t = FaultedWith s .stackUnderflow (some ir) (some (sp.setWidth 9))
      else t.run ≠ .faulted ∧ t.fault = s.fault

/-- R81, R92: a step exists exactly in Running; in Halted and in Faulted there is none, and the model says which. That a
terminal state has no do-nothing step is the spec's own decision D24; that "no step" is an outcome of kind fault is log
entry 1. -/
def Obligations.StepExistsExactlyWhenRunning : Prop :=
  (∀ s : State, (∃ t, step s = .next t) ↔ s.run = .running) ∧
  (∀ s : State, s.run = .halted → step s = .fault .noStepHalted) ∧
  (∀ s : State, s.run = .faulted → step s = .fault .noStepFaulted)

/-- R80, the table of moves: a step leaves Running only by HLT, to Halted, or by a fault, to Faulted; every other step ends
in Running; no step leaves Halted or Faulted. -/
def Obligations.RunStateMovesByTable : Prop :=
  (∀ s t : State, step s = .next t →
    s.run = .running ∧
    (t.run = .halted ↔ s.pc.toNat + 2 ≤ 255 ∧ memByte s.mem s.pc.toNat = 0x01#8) ∧
    (t.run = .faulted ↔ ∃ c o ix, t = FaultedWith s c o ix)) ∧
  (∀ s t : State, s.run = .halted ∨ s.run = .faulted → step s ≠ .next t)

/-- R88, R149: a step that raises a fault, at whatever stage, writes only `run` and `fault`; memory, registers, pc and output
keep their values; the record names the instruction's address, and its opcode byte unless the fetch itself faulted. That
every fault commits nothing is the spec's own decision D11. -/
def Obligations.FaultWritesOnlyRunAndRecord : Prop :=
  ∀ s t : State, step s = .next t → t.run = .faulted →
    t.mem = s.mem ∧ t.x = s.x ∧ t.pc = s.pc ∧ t.out = s.out ∧
    ∃ r, t.fault = some r ∧ r.pc = s.pc ∧
      r.opcode = if 255 < s.pc.toNat then none else some (memByte s.mem s.pc.toNat)

/-- R140, R142, R143: the record of every fault a step takes has the fields the table gives its cause: its pc and opcode
byte, and as index 256, the first register operand byte above 7 (at pc + 1, else at pc + 2), or SP. The record's layout is
the spec's own decision D10; pc above 256 is no value the pc reaches (R28). -/
def Obligations.FaultRecordHasTheFieldsOfItsCause : Prop :=
  ∀ s t : State, s.pc.toNat ≤ 256 → step s = .next t → t.run = .faulted →
    ∃ r, t.fault = some r ∧ r.Describes s

/-- R146: no step raises ALUError. -/
def Obligations.AluErrorIsNeverRaised : Prop :=
  ∀ s t : State, step s = .next t → t.run = .faulted → ∀ r, t.fault = some r → r.cause ≠ .aluError

/-- R86, R131, R132: a step that does not redirect moves pc by IR[7:6] + 1, not reduced modulo 256; CALL and RET keep the
value their handler set: the target register's value, read after the SP update, and the popped byte. That CALL R7 jumps to
the decremented SP is the spec's own decision D14 (log 2). -/
def Obligations.NextPcByOpcode : Prop :=
  ∀ s t : State, Executing s → step s = .next t → t.run ≠ .faulted →
    let ir := memByte s.mem s.pc.toNat
    (ir ≠ 0x50#8 → ir ≠ 0x11#8 → t.pc.toNat = s.pc.toNat + ir.toNat / 64 + 1) ∧
    (ir = 0x50#8 → ∀ ra : RegIdx, (memByte s.mem (s.pc.toNat + 1)).toNat = ra.val →
      t.pc.toNat = (readReg t ra).toNat) ∧
    (ir = 0x11#8 → t.pc.toNat = (memByte s.mem (readReg s 7).toNat).toNat)

/-- spec/10_state.md R28: pc stays at most 256, and it becomes 256 only when a 3-byte instruction at 253 completes (a fault
at 256 leaves it there). The width and the missing wrap are the spec's own decision D4. -/
def Obligations.PcNeverWraps : Prop :=
  ∀ s t : State, s.pc.toNat ≤ 256 → step s = .next t →
    t.pc.toNat ≤ 256 ∧
    (t.pc.toNat = 256 → t.run ≠ .faulted →
      s.pc.toNat = 253 ∧ memByte s.mem 253 ∈ [0x82#8, 0xA0#8, 0xA2#8])

/-! ## The invariant -/

/-- Every step keeps the invariant: canonical memory, pc at most 256, a fault record exactly in Faulted, precise. -/
def Obligations.StepKeepsTheInvariant : Prop := ∀ s t : State, s.Inv → step s = .next t → t.Inv

/-- The reset state meets the invariant. -/
def Obligations.ResetMeetsTheInvariant : Prop := State.reset.Inv

/-- From reset, for EVERY image that fits, every state any number of steps reaches meets the invariant. -/
def Obligations.EveryRunOfEveryImageKeepsTheInvariant : Prop :=
  ∀ (img : List Byte) (s0 s : State) (n : Nat),
    loadImage State.reset img = .ok s0 → Sys2Proof.core.run n s0 = .next s → State.Inv s

/-- spec/10_state.md R38, spec/70_reset_and_hazards.md R160: what reset leaves. R0 to R6 at zero are the spec's own decision
D13. -/
def Obligations.ResetLeavesTheTableValues : Prop :=
  (∀ addr, memByte State.reset.mem addr = 0x00#8) ∧
  (∀ r : RegIdx, readReg State.reset r = if r = 7 then 0xF4#8 else 0x00#8) ∧
  State.reset.pc = 0#9 ∧ State.reset.run = .running ∧ State.reset.fault = none ∧ State.reset.out = []

/-! ## Memory (spec/20_memory.md) -/

/-- R42, R43: the two accesses, above 255 and inside the address space; a read answers the cell, a write replaces it and no
other. -/
def Obligations.AccessesAreBoundsChecked : Prop :=
  ∀ (m : List Host.Cell) (addr : Nat) (v : Byte), Memory.wf m = true →
    (255 < addr →
      memRead m addr = .error ⟨.outOfBoundsMemory, some (BitVec.ofNat 9 addr)⟩ ∧
      memWrite m addr v = .error ⟨.outOfBoundsMemory, some (BitVec.ofNat 9 addr)⟩) ∧
    (addr ≤ 255 →
      memRead m addr = .ok (memByte m addr) ∧
      ∃ m', memWrite m addr v = .ok m' ∧ Memory.wf m' = true ∧
        ∀ b, memByte m' b = if b = addr then v else memByte m b)

/-- R49: after any sequence of writes, oldest first, a read returns the value of the latest write to that address, and where
there was none, what the memory held before. -/
def Obligations.ReadReturnsTheLatestWrite : Prop :=
  ∀ (m : List Host.Cell) (writes : List (Nat × Byte)) (addr : Nat),
    Memory.wf m = true → (∀ w ∈ writes, w.1 ≤ 255) →
    memByte (writes.foldl (fun m w => memPut m w.1 w.2) m) addr =
      ((writes.reverse.find? (fun w => w.1 = addr)).map Prod.snd).getD (memByte m addr)

/-- R41, R46: a step writes at most one memory cell, the one at SP - 1, and only if its instruction is a PUSH or a CALL. -/
def Obligations.StepWritesOnlyTheStackCell : Prop :=
  ∀ s t : State, step s = .next t →
    SameMemoryBut (readReg s 7 - 1#8).toNat s t ∧
    (memByte s.mem s.pc.toNat ∉ [0x45#8, 0x50#8] → t.mem = s.mem)

/-- R52: a PUSH whose stack cell is its own opcode byte runs with the old byte, and the byte it stored is what the next fetch
there sees: if that is no opcode, DecodeError names it. PUSH R7 stores the decremented SP (decision D14). -/
def Obligations.PushOverItsOwnOpcodeRunsTheOldByte : Prop :=
  ∀ (s : State) (ra : RegIdx), Memory.wf s.mem = true → Executing s →
    memByte s.mem s.pc.toNat = 0x45#8 → (memByte s.mem (s.pc.toNat + 1)).toNat = ra.val →
    readReg s 7 ≠ 0#8 → (readReg s 7 - 1#8).toNat = s.pc.toNat →
    let pushed := if ra = 7 then readReg s 7 - 1#8 else readReg s ra
    ∃ t, step s = .next t ∧ t.pc.toNat = s.pc.toNat + 2 ∧ readReg t 7 = readReg s 7 - 1#8 ∧
      memByte t.mem s.pc.toNat = pushed ∧
      ∀ u, u.mem = t.mem → u.run = .running → u.pc = s.pc → pushed ∉ opcodes →
        step u = .next (FaultedWith u .decodeError (some pushed) none)

/-! ## The output stream -/

/-- spec/10_state.md R37, R33: the output changes only by a PRN, which appends one value, the register's. -/
def Obligations.OnlyPrnExtendsTheOutput : Prop :=
  ∀ s t : State, step s = .next t →
    t.out = s.out ∨
    ∃ ra : RegIdx, Executing s ∧ memByte s.mem s.pc.toNat = 0x47#8 ∧
      (memByte s.mem (s.pc.toNat + 1)).toNat = ra.val ∧ t.out = s.out ++ [readReg s ra]

/-- spec/10_state.md R37: the output is never read by the core: two states that differ only in the values emitted earlier take
the same step. -/
def Obligations.EarlierOutputHasNoInfluence : Prop :=
  ∀ (s : State) (earlier : List Byte),
    step { s with out := earlier ++ s.out } =
      match step s with
      | .next t => .next { t with out := earlier ++ t.out }
      | .fault f => .fault f
      | .refused r => .refused r

/-! ## The instructions -/

/-- R100, whole: LDI's encoding, its fault, its effect, and what it leaves unchanged. -/
def Obligations.LdiLoadsTheImmediate : Prop :=
  (∀ a imm : Byte, encode (.ldi a imm) = [0x82#8, a, imm] ∧ decode 0x82#8 a imm = .ok (.ldi a imm)) ∧
  ∀ (a imm : Byte) (s : State), Executing s →
    (7 < a.toNat → exec (.ldi a imm) s =
      .next (FaultedWith s .outOfBoundsRegister (some 0x82#8) (some (a.setWidth 9)))) ∧
    (∀ ra : RegIdx, a.toNat = ra.val → ∃ t, exec (.ldi a imm) s = .next t ∧
      readReg t ra = imm ∧ SameRegsBut [ra] s t ∧ t.pc.toNat = s.pc.toNat + 3 ∧
      SameMemory s t ∧ t.out = s.out ∧ SameStatus s t)

/-- R101: PRN's encoding, its fault, its effect, and what it leaves unchanged; the third byte is ignored. That the core emits
the value itself is the spec's own decision D15. -/
def Obligations.PrnEmitsTheRegister : Prop :=
  (∀ a b : Byte, encode (.prn a) = [0x47#8, a] ∧ decode 0x47#8 a b = .ok (.prn a)) ∧
  ∀ (a : Byte) (s : State), Executing s →
    (7 < a.toNat → exec (.prn a) s =
      .next (FaultedWith s .outOfBoundsRegister (some 0x47#8) (some (a.setWidth 9)))) ∧
    (∀ ra : RegIdx, a.toNat = ra.val → ∃ t, exec (.prn a) s = .next t ∧
      t.out = s.out ++ [readReg s ra] ∧ SameRegsBut [] s t ∧ t.pc.toNat = s.pc.toNat + 2 ∧
      SameMemory s t ∧ SameStatus s t)

/-- R111, whole: ADD's encoding, its two faults in order, its sum modulo 256, and what it leaves unchanged; a and b may be the
same register, and either may be R7. -/
def Obligations.AddWritesTheSumModulo256 : Prop :=
  (∀ a b : Byte, encode (.add a b) = [0xA0#8, a, b] ∧ decode 0xA0#8 a b = .ok (.add a b)) ∧
  ∀ (a b : Byte) (s : State), Executing s →
    (7 < a.toNat → exec (.add a b) s =
      .next (FaultedWith s .outOfBoundsRegister (some 0xA0#8) (some (a.setWidth 9)))) ∧
    (a.toNat ≤ 7 → 7 < b.toNat → exec (.add a b) s =
      .next (FaultedWith s .outOfBoundsRegister (some 0xA0#8) (some (b.setWidth 9)))) ∧
    (∀ ra rb : RegIdx, a.toNat = ra.val → b.toNat = rb.val → ∃ t, exec (.add a b) s = .next t ∧
      (readReg t ra).toNat = ((readReg s ra).toNat + (readReg s rb).toNat) % 256 ∧ SameRegsBut [ra] s t ∧
      t.pc.toNat = s.pc.toNat + 3 ∧ SameMemory s t ∧ t.out = s.out ∧ SameStatus s t)

/-- R112, whole: MUL's encoding, its two faults in order, its product modulo 256, and what it leaves unchanged. -/
def Obligations.MulWritesTheProductModulo256 : Prop :=
  (∀ a b : Byte, encode (.mul a b) = [0xA2#8, a, b] ∧ decode 0xA2#8 a b = .ok (.mul a b)) ∧
  ∀ (a b : Byte) (s : State), Executing s →
    (7 < a.toNat → exec (.mul a b) s =
      .next (FaultedWith s .outOfBoundsRegister (some 0xA2#8) (some (a.setWidth 9)))) ∧
    (a.toNat ≤ 7 → 7 < b.toNat → exec (.mul a b) s =
      .next (FaultedWith s .outOfBoundsRegister (some 0xA2#8) (some (b.setWidth 9)))) ∧
    (∀ ra rb : RegIdx, a.toNat = ra.val → b.toNat = rb.val → ∃ t, exec (.mul a b) s = .next t ∧
      (readReg t ra).toNat = (readReg s ra).toNat * (readReg s rb).toNat % 256 ∧ SameRegsBut [ra] s t ∧
      t.pc.toNat = s.pc.toNat + 3 ∧ SameMemory s t ∧ t.out = s.out ∧ SameStatus s t)

/-- PUSH (spec/43_stack.md): its encoding, its two faults in order, the byte stored at SP - 1, and what it leaves unchanged.
PUSH R7 stores the decremented SP: the spec's own decision D14; the bound at SP = 0 is its decision D7. -/
def Obligations.PushStoresBelowTheStackPointer : Prop :=
  (∀ a b : Byte, encode (.push a) = [0x45#8, a] ∧ decode 0x45#8 a b = .ok (.push a)) ∧
  ∀ (a : Byte) (s : State), Memory.wf s.mem = true → Executing s →
    let sp := readReg s 7
    (7 < a.toNat → exec (.push a) s =
      .next (FaultedWith s .outOfBoundsRegister (some 0x45#8) (some (a.setWidth 9)))) ∧
    (a.toNat ≤ 7 → sp = 0#8 → exec (.push a) s = .next (FaultedWith s .stackOverflow (some 0x45#8) (some 0#9))) ∧
    (∀ ra : RegIdx, a.toNat = ra.val → sp ≠ 0#8 → ∃ t, exec (.push a) s = .next t ∧
      (readReg t 7).toNat + 1 = sp.toNat ∧ SameRegsBut [7] s t ∧
      memByte t.mem (sp - 1#8).toNat = (if ra = 7 then sp - 1#8 else readReg s ra) ∧
      SameMemoryBut (sp - 1#8).toNat s t ∧
      t.pc.toNat = s.pc.toNat + 2 ∧ t.out = s.out ∧ SameStatus s t)

/-- POP (spec/43_stack.md): its encoding, its two faults in order, its effect, and what it leaves unchanged. POP R7 ends with
the popped byte plus 1 modulo 256: the spec's own decision D14; the bound at 0xF4 is its decision D8. -/
def Obligations.PopLoadsFromTheStackPointer : Prop :=
  (∀ a b : Byte, encode (.pop a) = [0x46#8, a] ∧ decode 0x46#8 a b = .ok (.pop a)) ∧
  ∀ (a : Byte) (s : State), Executing s →
    let sp := readReg s 7
    (7 < a.toNat → exec (.pop a) s =
      .next (FaultedWith s .outOfBoundsRegister (some 0x46#8) (some (a.setWidth 9)))) ∧
    (a.toNat ≤ 7 → 0xF4 ≤ sp.toNat → exec (.pop a) s =
      .next (FaultedWith s .stackUnderflow (some 0x46#8) (some (sp.setWidth 9)))) ∧
    (∀ ra : RegIdx, a.toNat = ra.val → sp.toNat < 0xF4 → ∃ t, exec (.pop a) s = .next t ∧
      (ra ≠ 7 → readReg t ra = memByte s.mem sp.toNat ∧ (readReg t 7).toNat = sp.toNat + 1) ∧
      (ra = 7 → (readReg t 7).toNat = ((memByte s.mem sp.toNat).toNat + 1) % 256) ∧
      SameRegsBut [ra, 7] s t ∧ SameMemory s t ∧
      t.pc.toNat = s.pc.toNat + 2 ∧ t.out = s.out ∧ SameStatus s t)

/-- R130: HLT's encoding, its effect, and what it leaves unchanged; at 254 or 255 it does not halt but faults; no other
instruction halts; after it no step exists. -/
def Obligations.HltHaltsAndAdvances : Prop :=
  (∀ a b : Byte, encode .hlt = [0x01#8] ∧ decode 0x01#8 a b = .ok .hlt) ∧
  (∀ s : State, Executing s → ∃ t, exec .hlt s = .next t ∧ t.run = .halted ∧ t.pc.toNat = s.pc.toNat + 1 ∧
    SameRegsBut [] s t ∧ SameMemory s t ∧ t.out = s.out ∧ t.fault = s.fault ∧ ∀ u, step t ≠ .next u) ∧
  (∀ s : State, s.run = .running → s.pc.toNat = 254 ∨ s.pc.toNat = 255 → memByte s.mem s.pc.toNat = 0x01#8 →
    step s = .next (FaultedWith s .outOfBoundsMemory (some 0x01#8) (some 256#9))) ∧
  (∀ (i : Instr) (s t : State), Executing s → exec i s = .next t → t.run = .halted → i = .hlt)

/-- CALL (spec/44_control_transfer.md): its encoding, its two faults in order, the return address pc + 2 stored at SP - 1, the
jump, and what it leaves unchanged. CALL R7 jumps to the decremented SP: the spec's own decision D14. -/
def Obligations.CallPushesPcPlus2AndJumps : Prop :=
  (∀ a b : Byte, encode (.call a) = [0x50#8, a] ∧ decode 0x50#8 a b = .ok (.call a)) ∧
  ∀ (a : Byte) (s : State), Memory.wf s.mem = true → Executing s →
    let sp := readReg s 7
    (7 < a.toNat → exec (.call a) s =
      .next (FaultedWith s .outOfBoundsRegister (some 0x50#8) (some (a.setWidth 9)))) ∧
    (a.toNat ≤ 7 → sp = 0#8 → exec (.call a) s = .next (FaultedWith s .stackOverflow (some 0x50#8) (some 0#9))) ∧
    (∀ ra : RegIdx, a.toNat = ra.val → sp ≠ 0#8 → ∃ t, exec (.call a) s = .next t ∧
      (readReg t 7).toNat + 1 = sp.toNat ∧ SameRegsBut [7] s t ∧
      (memByte t.mem (sp - 1#8).toNat).toNat = s.pc.toNat + 2 ∧ SameMemoryBut (sp - 1#8).toNat s t ∧
      t.pc.toNat = (if ra = 7 then sp - 1#8 else readReg s ra).toNat ∧ t.out = s.out ∧ SameStatus s t)

/-- R132, whole: RET's encoding, its fault, the pop into pc, and what it leaves unchanged. -/
def Obligations.RetPopsIntoThePc : Prop :=
  (∀ a b : Byte, encode .ret = [0x11#8] ∧ decode 0x11#8 a b = .ok .ret) ∧
  ∀ s : State, Executing s →
    let sp := readReg s 7
    (0xF4 ≤ sp.toNat → exec .ret s = .next (FaultedWith s .stackUnderflow (some 0x11#8) (some (sp.setWidth 9)))) ∧
    (sp.toNat < 0xF4 → ∃ t, exec .ret s = .next t ∧
      t.pc.toNat = (memByte s.mem sp.toNat).toNat ∧ (readReg t 7).toNat = sp.toNat + 1 ∧
      SameRegsBut [7] s t ∧ SameMemory s t ∧ t.out = s.out ∧ SameStatus s t)

/-- spec/10_state.md R25, spec/60_exceptions.md R143: an instruction raises OutOfBounds(register) exactly if one of its
register operand bytes is above 7, and the recorded index is the first such byte. That the bytes are not masked is the
spec's own decision D6. -/
def Obligations.RegisterFaultExactlyWhenAnOperandIsAbove7 : Prop :=
  ∀ (i : Instr) (s : State), Executing s →
    (WellFormed i = false ↔
      ∃ ix, exec i s = .next (FaultedWith s .outOfBoundsRegister (some (opcodeOf i)) ix)) ∧
    (∀ ix, exec i s = .next (FaultedWith s .outOfBoundsRegister (some (opcodeOf i)) ix) →
      ∃ a, (regOperandsOf i).find? (fun a => 7 < a.toNat) = some a ∧ ix = some (a.setWidth 9))

/-! ## Frames, over every state and every operand byte -/

/-- HLT, LDI, PRN, ADD, MUL, whenever exec answers a next state: memory unchanged; every register unchanged but LDI's, ADD's
and MUL's destination; output unchanged but for PRN; run and record unchanged but for HLT, or a fault taken with nothing
else changed. -/
def Obligations.FrameOfHltLdiPrnAddMul : Prop :=
  ∀ (s t : State) (i : Instr), exec i s = .next t →
    (i = .hlt ∨ (∃ a imm, i = .ldi a imm) ∨ (∃ a, i = .prn a) ∨ (∃ a b, i = .add a b) ∨ ∃ a b, i = .mul a b) →
    SameMemory s t ∧
    (∀ q : RegIdx, (∀ a b : Byte, i = .ldi a b ∨ i = .add a b ∨ i = .mul a b → q.val ≠ a.toNat) →
      readReg t q = readReg s q) ∧
    ((∀ a, i ≠ .prn a) → t.out = s.out) ∧
    (i ≠ .hlt → SameStatus s t ∨ ∃ c o ix, t = FaultedWith s c o ix) ∧
    (i = .hlt → t.fault = s.fault)

/-- PUSH and CALL, whenever exec answers a next state: every register unchanged but SP; every byte of memory unchanged but the
one at SP - 1, the address the meaning stores to; output unchanged; run and record unchanged, or a fault taken with
nothing else changed. -/
def Obligations.FrameOfPushAndCall : Prop :=
  ∀ (s t : State) (a : Byte), exec (.push a) s = .next t ∨ exec (.call a) s = .next t →
    SameRegsBut [Config.spIndex] s t ∧ SameMemoryBut (readSp s - 1#8).toNat s t ∧ t.out = s.out ∧
    (SameStatus s t ∨ ∃ c o ix, t = FaultedWith s c o ix)

/-- POP and RET, whenever exec answers a next state: memory unchanged (a pop does not clear its cell); every register
unchanged but SP and POP's destination; output unchanged; run and record unchanged, or a fault taken with nothing else
changed. -/
def Obligations.FrameOfPopAndRet : Prop :=
  ∀ (s t : State) (i : Instr), exec i s = .next t → (i = .ret ∨ ∃ a, i = .pop a) →
    SameMemory s t ∧
    (∀ q : RegIdx, q ≠ Config.spIndex → (∀ a : Byte, i = .pop a → q.val ≠ a.toNat) → readReg t q = readReg s q) ∧
    t.out = s.out ∧ (SameStatus s t ∨ ∃ c o ix, t = FaultedWith s c o ix)

/-- spec/10_state.md R24's "reads" column: a register that an instruction neither reads nor writes by the table has no
influence: changing it changes nothing of the step but that register itself. The table is the spec's own derivation. -/
def Obligations.UnreadRegisterHasNoInfluence : Prop :=
  ∀ (i : Instr) (s : State) (q : RegIdx) (v : Byte),
    (match i with
      | .hlt => True
      | .ldi a _ => q.val ≠ a.toNat
      | .prn a => q.val ≠ a.toNat
      | .mul a b => q.val ≠ a.toNat ∧ q.val ≠ b.toNat
      | .add a b => q.val ≠ a.toNat ∧ q.val ≠ b.toNat
      | .push a => q.val ≠ a.toNat ∧ q ≠ 7
      | .pop a => q.val ≠ a.toNat ∧ q ≠ 7
      | .call a => q.val ≠ a.toNat ∧ q ≠ 7
      | .ret => q ≠ 7) →
    ∃ t, exec i s = .next t ∧ exec i (writeReg s q v) = .next (writeReg t q v)

/-! ## The ALU (spec/42_alu.md) -/

/-- R110: the two operations, as the exact sum and product modulo 256. Wrapping is the spec's own decision D2. -/
def Obligations.AluIsArithmeticModulo256 : Prop :=
  ∀ va vb : Byte, (alu .add va vb).toNat = (va.toNat + vb.toNat) % 256 ∧
    (alu .mul va vb).toNat = va.toNat * vb.toNat % 256

/-- R113: the laws the spec derives for them. -/
def Obligations.AluLawsOfModularArithmetic : Prop :=
  (∀ (op : AluOp) (u v w : Byte), alu op u v = alu op v u ∧ alu op (alu op u v) w = alu op u (alu op v w)) ∧
  (∀ u v w : Byte, alu .mul u (alu .add v w) = alu .add (alu .mul u v) (alu .mul u w)) ∧
  (∀ u : Byte, alu .add u 0#8 = u ∧ alu .mul u 0#8 = 0#8 ∧ alu .mul u 1#8 = u)

/-! ## Stack and call properties -/

/-- R121: a push and then a pop of the pushed byte: the popped register receives what was pushed, and SP is where it was,
unless the pop names R7 itself, which then ends one above the popped byte (the spec's own decision D14). From pc 252 or 253
the pop begins at 254 or 255, where no step runs it (R83): that it completes there is the model's DESIGN CHOICE, log 6. -/
def Obligations.PushThenPopRestores : Prop :=
  ∀ (s : State) (a b : Byte) (ra rb : RegIdx), Memory.wf s.mem = true → Executing s →
    a.toNat = ra.val → b.toNat = rb.val → readReg s 7 ≠ 0#8 → (readReg s 7).toNat ≤ 0xF4 →
    let pushed := if ra = 7 then readReg s 7 - 1#8 else readReg s ra
    ∃ t u, exec (.push a) s = .next t ∧ exec (.pop b) t = .next u ∧
      (rb ≠ 7 → readReg u rb = pushed ∧ readReg u 7 = readReg s 7) ∧
      (rb = 7 → readReg u 7 = pushed + 1#8) ∧ SameRegsBut [rb, 7] s u

/-- R133: a CALL that reaches a RET returns to the CALL's address plus 2, with every register as before the CALL. -/
def Obligations.CallThenRetReturnsToCallPlus2 : Prop :=
  ∀ s t : State, Memory.wf s.mem = true → Executing s → memByte s.mem s.pc.toNat = 0x50#8 →
    (readReg s 7).toNat ≤ 0xF4 → step s = .next t → Executing t → memByte t.mem t.pc.toNat = 0x11#8 →
    ∃ u, step t = .next u ∧ u.pc.toNat = s.pc.toNat + 2 ∧ SameRegsBut [] s u ∧
      u.run = .running ∧ u.out = s.out ∧ SameMemoryBut (readReg s 7 - 1#8).toNat s u

/-- R133: two nested CALLs followed by two RETs return to the two call sites in reverse order of entry. -/
def Obligations.NestedCallsReturnInReverseOrder : Prop :=
  ∀ s t1 t2 t3 : State, Memory.wf s.mem = true → (readReg s 7).toNat ≤ 0xF4 →
    Executing s → memByte s.mem s.pc.toNat = 0x50#8 → step s = .next t1 →
    Executing t1 → memByte t1.mem t1.pc.toNat = 0x50#8 → step t1 = .next t2 →
    Executing t2 → memByte t2.mem t2.pc.toNat = 0x11#8 → step t2 = .next t3 →
    Executing t3 → memByte t3.mem t3.pc.toNat = 0x11#8 →
    t3.pc.toNat = t1.pc.toNat + 2 ∧
      ∃ u, step t3 = .next u ∧ u.pc.toNat = s.pc.toNat + 2 ∧ readReg u 7 = readReg s 7

/-! ## The host's interfaces -/

/-- spec/70_reset_and_hazards.md R161: an image of at most 256 bytes lies from address 0, every other cell reads 0, and
nothing else differs from reset; a longer one is not loaded (the spec's own decision D21). -/
def Obligations.ImageLoadFillsMemoryFromZero : Prop :=
  (∀ img : List Byte, img.length ≤ 256 → ∃ s, loadImage State.reset img = .ok s ∧
    (∀ k (h : k < img.length), memByte s.mem k = img[k]) ∧
    (∀ k, img.length ≤ k → memByte s.mem k = 0x00#8) ∧
    s = { State.reset with mem := s.mem } ∧ Memory.wf s.mem = true) ∧
  (∀ img : List Byte, 256 < img.length → loadImage State.reset img = .error .imageTooLong)

/-- R160, R163, R165: after a successful boot the first step fetches at address 0 in Running; after a failed one the block is
in its reset state. What makes a load fail beyond the source's words is the spec's own decision D21. -/
def Obligations.BootEndsAtResetWithTheImageOrAtReset : Prop :=
  (∀ text img, parseProgram text = .ok img → img.length ≤ 256 →
    ∃ s, boot (some text) = (s, none) ∧ loadImage State.reset img = .ok s ∧ s.pc.toNat = 0 ∧ s.run = .running) ∧
  (∀ file s e, boot file = (s, some e) → s = State.reset) ∧
  (boot none).2 = some .fileUnreadable ∧
  (∀ text img, parseProgram text = .ok img → 256 < img.length → (boot (some text)).2 = some .imageTooLong) ∧
  (∀ text e, parseProgram text = .error e → (boot (some text)).2 = some e)

/-- R162: a blank line and a comment-only line consume no address, wherever they stand; a comment after a literal is
ignored. Which characters are white space is log entry 10. -/
def Obligations.LoaderIgnoresBlankLinesAndComments : Prop :=
  (∀ (before after : List (List Char)) (space comment : List Char), (∀ c ∈ space, c.isWhitespace = true) →
    parseLines (before ++ space :: after) = parseLines (before ++ after) ∧
    parseLines (before ++ (space ++ '#' :: comment) :: after) = parseLines (before ++ after)) ∧
  (∀ line comment : List Char, '#' ∉ line → parseLine (line ++ '#' :: comment) = parseLine line)

/-- R162: a file that holds one 8-character binary literal per line, one for each byte of an image, is read back as that
image. The line end is log entry 11. -/
def Obligations.ProgramTextReadsBackAsItsImage : Prop :=
  ∀ img : List Byte, parseProgram (img.flatMap fun v => binaryText v ++ ['\n']) = .ok img

/-- spec/60_exceptions.md R158: each value is written, in order, as its decimal numeral (digits that read back as the value,
no leading zero, no sign) followed by a line end. That the line end is the newline character is the model's choice
(PRESUMED, log 11). -/
def Obligations.OutputTextIsDecimalOneValuePerLine : Prop :=
  outputText [] = [] ∧
  (∀ (out : List Byte) (v : Byte), outputText (out ++ [v]) = outputText out ++ (decimal v ++ ['\n'])) ∧
  (∀ v : Byte, (decimal v).all Char.isDigit = true ∧
    (decimal v).foldl (fun n c => 10 * n + (c.toNat - 48)) 0 = v.toNat ∧
    ((decimal v).head? = some '0' → v = 0#8 ∧ decimal v = ['0']))

/-- spec/60_exceptions.md R157: the exit statuses. Status 1 for faults other than DecodeError and for LoadError is the spec's
own decision D22. That an unreadable file gives 2, not LoadError's 1, and that a run which has not ended has no status, is
the model's reading (DEDUCED, log 12). -/
def Obligations.ExitStatusByTheEndOfTheRun : Prop :=
  exitStatus .usage = some 1 ∧ exitStatus (.loadFailed .fileUnreadable) = some 2 ∧
  (∀ e, e ≠ .fileUnreadable → exitStatus (.loadFailed e) = some 1) ∧
  (∀ s : State, (s.run = .halted → exitStatus (.ranTo s) = some 0) ∧
    (s.run = .faulted → exitStatus (.ranTo s) = some 1) ∧ (s.run = .running → exitStatus (.ranTo s) = none))

/-- spec/60_exceptions.md R155: the trace printer's read gives pc, the three bytes from pc, and all registers; an address
above 255 has no value (the spec's own decision D23). -/
def Obligations.DebugReadShowsTheState : Prop :=
  ∀ s : State, (debugDump s).pc = s.pc ∧ (∀ r : RegIdx, (debugDump s).regs[r] = readReg s r) ∧
    (debugDump s).bytes.length = 3 ∧
    ∀ k, k < 3 → (debugDump s).bytes[k]? =
      some (if 255 < s.pc.toNat + k then none else some (memByte s.mem (s.pc.toNat + k)))

/-! ## The whole machine -/

/-- R89: from every state that meets the invariant, the model's step is the spec's pseudocode for a step, over flat arrays of
natural numbers; where the one has no next state the other has none. It rests on the decisions the pseudocode itself
rests on (D5, D11). -/
def Obligations.StepRefinesThePseudocode : Prop :=
  ∀ s : State, s.Inv →
    (∀ t, step s = .next t → s.flat.step = some t.flat) ∧ ((∀ t, step s ≠ .next t) → s.flat.step = none)
end

