-- ==== Sys2Proof/Laws/Decode.lean ====
section
/-! SUPPORT. What the decoder can answer, said once. -/

namespace Sys2Proof

/-- A decoded instruction has the opcode byte it was decoded from. -/
theorem opcodeOf_of_decode {ir a b : Byte} {i : Instr} (h : decode ir a b = .ok i) : opcodeOf i = ir := by
  unfold decode at h
  repeat' (split at h; · cases h; symm; assumption)
  cases h

/-- The opcode byte of every instruction is one of the nine. -/
theorem opcodeOf_mem (i : Instr) : opcodeOf i ∈ opcodes := by
  cases i <;> simp [opcodeOf, opcodes]

/-- A byte that is none of the nine is rejected by name. -/
theorem decode_of_notMem {ir : Byte} (h : ir ∉ opcodes) (a b : Byte) :
    decode ir a b = .error (.unknownOpcode ir) := by
  simp only [opcodes, List.mem_cons, List.not_mem_nil, or_false, not_or] at h
  obtain ⟨h1, h2, h3, h4, h5, h6, h7, h8, h9⟩ := h
  simp only [decode, if_neg h1, if_neg h2, if_neg h3, if_neg h4, if_neg h5, if_neg h6, if_neg h7, if_neg h8, if_neg h9]

/-- A byte that is one of the nine is accepted, whatever follows it. -/
theorem decode_of_mem {ir : Byte} (h : ir ∈ opcodes) (a b : Byte) : ∃ i, decode ir a b = .ok i := by
  simp only [opcodes, List.mem_cons, List.not_mem_nil, or_false] at h
  rcases h with rfl | rfl | rfl | rfl | rfl | rfl | rfl | rfl | rfl <;> exact ⟨_, rfl⟩

/-- A rejection names the byte, and the byte is none of the nine. -/
theorem decode_error {ir a b : Byte} {e : DecodeReject} (h : decode ir a b = .error e) :
    ir ∉ opcodes ∧ e = .unknownOpcode ir := by
  by_cases hm : ir ∈ opcodes
  · obtain ⟨i, hi⟩ := decode_of_mem hm a b
    rw [hi] at h
    cases h
  · rw [decode_of_notMem hm] at h
    cases h
    exact ⟨hm, rfl⟩

/-! ## The size of each instruction -/

@[simp] theorem instrSize_opHLT : instrSize opHLT = 1 := rfl
@[simp] theorem instrSize_opLDI : instrSize opLDI = 3 := rfl
@[simp] theorem instrSize_opPRN : instrSize opPRN = 2 := rfl
@[simp] theorem instrSize_opMUL : instrSize opMUL = 3 := rfl
@[simp] theorem instrSize_opADD : instrSize opADD = 3 := rfl
@[simp] theorem instrSize_opPUSH : instrSize opPUSH = 2 := rfl
@[simp] theorem instrSize_opPOP : instrSize opPOP = 2 := rfl
@[simp] theorem instrSize_opCALL : instrSize opCALL = 2 := rfl
@[simp] theorem instrSize_opRET : instrSize opRET = 1 := rfl

end Sys2Proof
end

