-- ==== Sys2Proof/Laws/State.lean ====
section
/-! SUPPORT. One lemma per field per update of the state, and reading a register after each update. -/

namespace Sys2Proof.Machine

section
variable (s : State)

/-! ## takeFault -/

@[simp] theorem takeFault_mem (o : Option Byte) (r : Raise) : (takeFault s o r).mem = s.mem := rfl
@[simp] theorem takeFault_x (o : Option Byte) (r : Raise) : (takeFault s o r).x = s.x := rfl
@[simp] theorem takeFault_pc (o : Option Byte) (r : Raise) : (takeFault s o r).pc = s.pc := rfl
@[simp] theorem takeFault_run (o : Option Byte) (r : Raise) : (takeFault s o r).run = .faulted := rfl
@[simp] theorem takeFault_fault (o : Option Byte) (r : Raise) :
    (takeFault s o r).fault = some { cause := r.cause, pc := s.pc, opcode := o, index := r.index } := rfl
@[simp] theorem takeFault_out (o : Option Byte) (r : Raise) : (takeFault s o r).out = s.out := rfl

/-! ## FaultedWith, the statements' spelling of takeFault -/

theorem takeFault_eq_faultedWith (o : Option Byte) (r : Raise) :
    takeFault s o r = FaultedWith s r.cause o r.index := rfl

/-! ## writeReg, writeSp -/

@[simp] theorem writeReg_mem (r : RegIdx) (v : Byte) : (writeReg s r v).mem = s.mem := rfl
@[simp] theorem writeReg_x (r : RegIdx) (v : Byte) : (writeReg s r v).x = s.x.set r v := rfl
@[simp] theorem writeReg_pc (r : RegIdx) (v : Byte) : (writeReg s r v).pc = s.pc := rfl
@[simp] theorem writeReg_run (r : RegIdx) (v : Byte) : (writeReg s r v).run = s.run := rfl
@[simp] theorem writeReg_fault (r : RegIdx) (v : Byte) : (writeReg s r v).fault = s.fault := rfl
@[simp] theorem writeReg_out (r : RegIdx) (v : Byte) : (writeReg s r v).out = s.out := rfl

@[simp] theorem writeSp_mem (v : Byte) : (writeSp s v).mem = s.mem := rfl
@[simp] theorem writeSp_pc (v : Byte) : (writeSp s v).pc = s.pc := rfl
@[simp] theorem writeSp_run (v : Byte) : (writeSp s v).run = s.run := rfl
@[simp] theorem writeSp_fault (v : Byte) : (writeSp s v).fault = s.fault := rfl
@[simp] theorem writeSp_out (v : Byte) : (writeSp s v).out = s.out := rfl

/-! ## setPc, emit, advance -/

@[simp] theorem setPc_mem (v : Byte) : (setPc s v).mem = s.mem := rfl
@[simp] theorem setPc_x (v : Byte) : (setPc s v).x = s.x := rfl
@[simp] theorem setPc_pc (v : Byte) : (setPc s v).pc = v.setWidth 9 := rfl
@[simp] theorem setPc_run (v : Byte) : (setPc s v).run = s.run := rfl
@[simp] theorem setPc_fault (v : Byte) : (setPc s v).fault = s.fault := rfl
@[simp] theorem setPc_out (v : Byte) : (setPc s v).out = s.out := rfl

@[simp] theorem emit_mem (v : Byte) : (emit s v).mem = s.mem := rfl
@[simp] theorem emit_x (v : Byte) : (emit s v).x = s.x := rfl
@[simp] theorem emit_pc (v : Byte) : (emit s v).pc = s.pc := rfl
@[simp] theorem emit_run (v : Byte) : (emit s v).run = s.run := rfl
@[simp] theorem emit_fault (v : Byte) : (emit s v).fault = s.fault := rfl
@[simp] theorem emit_out (v : Byte) : (emit s v).out = s.out ++ [v] := rfl

@[simp] theorem advance_mem (p : PcWord) (ir : Byte) : (advance p ir s).mem = s.mem := rfl
@[simp] theorem advance_x (p : PcWord) (ir : Byte) : (advance p ir s).x = s.x := rfl
@[simp] theorem advance_pc (p : PcWord) (ir : Byte) :
    (advance p ir s).pc = p + BitVec.ofNat 9 (instrSize ir) := rfl
@[simp] theorem advance_run (p : PcWord) (ir : Byte) : (advance p ir s).run = s.run := rfl
@[simp] theorem advance_fault (p : PcWord) (ir : Byte) : (advance p ir s).fault = s.fault := rfl
@[simp] theorem advance_out (p : PcWord) (ir : Byte) : (advance p ir s).out = s.out := rfl

/-! ## Reading a register -/

/-- A read depends on the register file alone. -/
theorem readReg_congr {s t : State} (h : t.x = s.x) (r : RegIdx) : readReg t r = readReg s r := by
  simp [readReg, h]

@[simp] theorem readReg_takeFault (o : Option Byte) (f : Raise) (q : RegIdx) :
    readReg (takeFault s o f) q = readReg s q := rfl
@[simp] theorem readReg_emit (v : Byte) (q : RegIdx) : readReg (emit s v) q = readReg s q := rfl
@[simp] theorem readReg_setPc (v : Byte) (q : RegIdx) : readReg (setPc s v) q = readReg s q := rfl
@[simp] theorem readReg_advance (p : PcWord) (ir : Byte) (q : RegIdx) :
    readReg (advance p ir s) q = readReg s q := rfl

/-- Reading any register after a register write. -/
theorem readReg_writeReg (r q : RegIdx) (v : Byte) :
    readReg (writeReg s r v) q = if q = r then v else readReg s q := by
  by_cases h : q = r
  · subst h; simp [readReg, writeReg]
  · simp only [readReg, writeReg, if_neg h]
    exact Vector.getElem_set_ne _ _ (fun e => h (Fin.ext e.symm))

@[simp] theorem readReg_writeReg_same (r : RegIdx) (v : Byte) : readReg (writeReg s r v) r = v := by
  simp [readReg_writeReg]

theorem readReg_writeReg_of_ne {r q : RegIdx} (h : q ≠ r) (v : Byte) :
    readReg (writeReg s r v) q = readReg s q := by
  simp [readReg_writeReg, h]

theorem readReg_writeSp (q : RegIdx) (v : Byte) :
    readReg (writeSp s v) q = if q = 7 then v else readReg s q := readReg_writeReg s 7 q v

@[simp] theorem readSp_writeSp (v : Byte) : readSp (writeSp s v) = v := readReg_writeReg_same s 7 v

/-- The stack pointer is register 7. -/
theorem readSp_eq : readSp s = readReg s 7 := rfl

end

end Sys2Proof.Machine
end

