-- ==== Sys2Proof/Laws/Memory.lean ====
section
/-! SUPPORT. The laws of the memory operations: what reads after a write, that every operation keeps the canonical form,
and that canonical memories which read the same are equal. -/

namespace Sys2Proof.Machine

open Config (memReset memSize)

/-! ## The canonical form -/

theorem wfFrom_cons {lo a : Nat} {v : Byte} {m : List Host.Cell} :
    Memory.wfFrom lo ((a, v) :: m) = true ↔
      lo ≤ a ∧ a < memSize ∧ v ≠ memReset ∧ Memory.wfFrom (a + 1) m = true := by
  simp [Memory.wfFrom, and_assoc]

/-- A canonical list stays canonical from a lower address on. -/
theorem wfFrom_mono {m : List Host.Cell} {lo lo' : Nat} (h : lo' ≤ lo) (hm : Memory.wfFrom lo m = true) :
    Memory.wfFrom lo' m = true := by
  cases m with
  | nil => rfl
  | cons c m =>
    obtain ⟨a, v⟩ := c
    rw [wfFrom_cons] at hm ⊢
    exact ⟨h.trans hm.1, hm.2⟩

/-- Below its first address a canonical list reads as the reset contents. -/
theorem memByte_of_lt {m : List Host.Cell} {lo a : Nat} (hm : Memory.wfFrom lo m = true) (h : a < lo) :
    memByte m a = memReset := by
  induction m generalizing lo with
  | nil => rfl
  | cons c m ih =>
    obtain ⟨b, v⟩ := c
    rw [wfFrom_cons] at hm
    rw [memByte, if_neg (by omega)]
    exact ih hm.2.2.2 (by omega)

/-- Outside the address space a canonical memory lists nothing. -/
theorem memByte_of_ge {m : List Host.Cell} {lo a : Nat} (hm : Memory.wfFrom lo m = true) (h : memSize ≤ a) :
    memByte m a = memReset := by
  induction m generalizing lo with
  | nil => rfl
  | cons c m ih =>
    obtain ⟨b, v⟩ := c
    rw [wfFrom_cons] at hm
    rw [memByte, if_neg (by omega)]
    exact ih hm.2.2.2

/-! ## Reads after writes -/

/-- A write leaves every other address alone, whatever the list. -/
theorem memByte_memPut_of_ne {a b : Nat} (h : b ≠ a) (m : List Host.Cell) (v : Byte) :
    memByte (memPut m a v) b = memByte m b := by
  induction m with
  | nil => by_cases hv : v = memReset <;> simp [memPut, memByte, hv, h]
  | cons c m ih =>
    obtain ⟨d, w⟩ := c
    rw [memPut]
    split
    · split <;> simp [memByte, h]
    · split
      · rename_i had
        subst had
        split <;> simp [memByte, h]
      · simp only [memByte, ih]

/-- A read after a write to the same address gives the value written. -/
theorem memByte_memPut_same {lo : Nat} {m : List Host.Cell} (hm : Memory.wfFrom lo m = true) (a : Nat) (v : Byte) :
    memByte (memPut m a v) a = v := by
  induction m generalizing lo with
  | nil => by_cases hv : v = memReset <;> simp [memPut, memByte, hv]
  | cons c m ih =>
    obtain ⟨d, w⟩ := c
    rw [wfFrom_cons] at hm
    rw [memPut]
    split
    · split
      · rename_i had hv
        rw [memByte, if_neg (by omega), memByte_of_lt hm.2.2.2 (by omega), hv]
      · simp [memByte]
    · split
      · rename_i had
        subst had
        split
        · rename_i hv
          rw [memByte_of_lt hm.2.2.2 (by omega), hv]
        · simp [memByte]
      · rename_i had
        rw [memByte, if_neg had]
        exact ih hm.2.2.2

/-- Reading any address after a write. -/
theorem memByte_memPut {m : List Host.Cell} (hm : Memory.wf m = true) (a b : Nat) (v : Byte) :
    memByte (memPut m a v) b = if b = a then v else memByte m b := by
  by_cases h : b = a
  · subst h; rw [if_pos rfl]; exact memByte_memPut_same hm b v
  · rw [if_neg h]; exact memByte_memPut_of_ne h m v

/-! ## Every operation keeps the canonical form -/

theorem wfFrom_memPut {lo a : Nat} {m : List Host.Cell} (hm : Memory.wfFrom lo m = true) (hlo : lo ≤ a)
    (ha : a < memSize) (v : Byte) : Memory.wfFrom lo (memPut m a v) = true := by
  induction m generalizing lo with
  | nil =>
    by_cases hv : v = memReset
    · simp [memPut, hv, Memory.wfFrom]
    · simp [memPut, hv, hlo, ha, Memory.wfFrom]
  | cons c m ih =>
    obtain ⟨d, w⟩ := c
    have h := wfFrom_cons.mp hm
    rw [memPut]
    split
    · split
      · exact hm
      · rename_i had hv
        exact wfFrom_cons.mpr ⟨hlo, ha, hv, wfFrom_cons.mpr ⟨by omega, h.2⟩⟩
    · split
      · rename_i had
        subst had
        split
        · exact wfFrom_mono (by omega) h.2.2.2
        · rename_i hv
          exact wfFrom_cons.mpr ⟨hlo, ha, hv, h.2.2.2⟩
      · exact wfFrom_cons.mpr ⟨h.1, h.2.1, h.2.2.1, ih h.2.2.2 (by omega)⟩

theorem wf_memPut {a : Nat} {m : List Host.Cell} (hm : Memory.wf m = true) (ha : a ≤ 255) (v : Byte) :
    Memory.wf (memPut m a v) = true :=
  wfFrom_memPut hm (Nat.zero_le a) (by simp only [memSize]; omega) v

theorem wf_putBytes {m : List Host.Cell} (hm : Memory.wf m = true) (a : Nat) (bs : List Byte) :
    Memory.wf (putBytes m a bs) = true := by
  induction bs generalizing m a with
  | nil => exact hm
  | cons b bs ih =>
    rw [putBytes]
    split
    · exact ih hm _
    · exact ih (wf_memPut hm (by omega) b) _

/-- What a memory reads as after a block of bytes was stored inside the address space. -/
theorem memByte_putBytes {m : List Host.Cell} (hm : Memory.wf m = true) (a : Nat) (bs : List Byte)
    (hb : a + bs.length ≤ 256) (addr : Nat) :
    memByte (putBytes m a bs) addr =
      if h : a ≤ addr ∧ addr < a + bs.length then bs[addr - a]'(by omega) else memByte m addr := by
  induction bs generalizing m a with
  | nil =>
    rw [putBytes, dif_neg]
    simp only [List.length_nil]
    omega
  | cons b bs ih =>
    simp only [List.length_cons] at hb ⊢
    rw [putBytes, if_neg (by omega), ih (wf_memPut hm (by omega) b) (a + 1) (by omega), memByte_memPut hm]
    by_cases h1 : addr = a
    · subst h1
      rw [dif_neg (by omega), if_pos rfl, dif_pos (by omega)]
      simp
    · by_cases h2 : a + 1 ≤ addr ∧ addr < a + 1 + bs.length
      · rw [dif_pos h2, dif_pos (by omega)]
        have e : addr - a = (addr - (a + 1)) + 1 := by omega
        simp [e]
      · rw [dif_neg h2, if_neg h1, dif_neg (by omega)]

/-! ## Equal memories are equal lists -/

theorem mem_ext_from {lo : Nat} {m m' : List Host.Cell} (hm : Memory.wfFrom lo m = true)
    (hm' : Memory.wfFrom lo m' = true) (h : ∀ a, memByte m a = memByte m' a) : m = m' := by
  induction m generalizing m' lo with
  | nil =>
    cases m' with
    | nil => rfl
    | cons c m' =>
      obtain ⟨a, v⟩ := c
      have hv := h a
      simp only [memByte, if_true] at hv
      exact absurd hv.symm (wfFrom_cons.mp hm').2.2.1
  | cons c m ih =>
    obtain ⟨a, v⟩ := c
    have w := wfFrom_cons.mp hm
    cases m' with
    | nil =>
      have hv := h a
      simp only [memByte, if_true] at hv
      exact absurd hv w.2.2.1
    | cons c' m' =>
      obtain ⟨a', v'⟩ := c'
      have w' := wfFrom_cons.mp hm'
      have ea : a = a' := by
        rcases Nat.lt_trichotomy a a' with hlt | heq | hgt
        · have hv := h a
          rw [memByte, if_pos rfl, memByte, if_neg (by omega), memByte_of_lt w'.2.2.2 (by omega)] at hv
          exact absurd hv w.2.2.1
        · exact heq
        · have hv := h a'
          rw [memByte, if_neg (by omega), memByte_of_lt w.2.2.2 (by omega), memByte, if_pos rfl] at hv
          exact absurd hv.symm w'.2.2.1
      subst ea
      have ev : v = v' := by simpa [memByte] using h a
      subst ev
      congr 1
      refine ih w.2.2.2 w'.2.2.2 (fun b => ?_)
      by_cases hb : b = a
      · subst hb
        rw [memByte_of_lt w.2.2.2 (by omega), memByte_of_lt w'.2.2.2 (by omega)]
      · simpa [memByte, hb] using h b

/-- Canonical memories that read the same at every address are the same list. -/
theorem mem_ext {m m' : List Host.Cell} (hm : Memory.wf m = true) (hm' : Memory.wf m' = true)
    (h : ∀ a, memByte m a = memByte m' a) : m = m' := mem_ext_from hm hm' h

/-! ## The bounded accesses -/

theorem memRead_of_le {m : List Host.Cell} {a : Nat} (h : a ≤ 255) : memRead m a = .ok (memByte m a) := by
  rw [memRead, if_neg (by omega)]

theorem memRead_of_gt {m : List Host.Cell} {a : Nat} (h : 255 < a) :
    memRead m a = .error ⟨.outOfBoundsMemory, some (BitVec.ofNat 9 a)⟩ := by
  rw [memRead, if_pos h]

theorem memWrite_of_le {m : List Host.Cell} {a : Nat} (h : a ≤ 255) (v : Byte) :
    memWrite m a v = .ok (memPut m a v) := by
  rw [memWrite, if_neg (by omega)]

theorem byte_toNat_le (b : Byte) : b.toNat ≤ 255 := by omega

/-- An 8-bit address is inside the address space. -/
theorem memRead_byte (m : List Host.Cell) (b : Byte) : memRead m b.toNat = .ok (memByte m b.toNat) :=
  memRead_of_le (byte_toNat_le b)

end Sys2Proof.Machine
end

