-- ==== Sys2Proof/Laws/WellFormed.lean ====
section
/-! SUPPORT. The well-formedness check in terms of the operand's value. -/

namespace Sys2Proof

@[simp] theorem validReg_eq_true {a : Byte} : validReg a = true ↔ a.toNat < 8 := decide_eq_true_iff

@[simp] theorem validReg_eq_false {a : Byte} : validReg a = false ↔ 8 ≤ a.toNat := by
  rw [Bool.eq_false_iff, ne_eq, validReg_eq_true, Nat.not_lt]

end Sys2Proof
end

