-- ==== Sys2Proof/Laws/Exec.lean ====
section
/-! SUPPORT. What each shared operation answers, and what each instruction answers, as equations: later proofs cite these
and do not unfold a meaning. -/

namespace Sys2Proof.Machine

/-! ## The shared operations -/

theorem regOperand_of_lt {a : Byte} (h : a.toNat < 8) : regOperand a = .ok ⟨a.toNat, h⟩ := by
  rw [regOperand, dif_pos h]

theorem regOperand_of_ge {a : Byte} (h : 8 ≤ a.toNat) :
    regOperand a = .error ⟨.outOfBoundsRegister, some (a.setWidth 9)⟩ := by
  rw [regOperand, dif_neg (by omega)]

theorem checkPush_of_ne {s : State} (h : readSp s ≠ 0#8) : checkPush s = .ok () := by
  rw [checkPush, Config.stackLimit, if_neg h]

theorem checkPush_of_eq {s : State} (h : readSp s = 0#8) : checkPush s = .error ⟨.stackOverflow, some 0#9⟩ := by
  rw [checkPush, Config.stackLimit, if_pos h, h]
  rfl

theorem checkPop_of_lt {s : State} (h : (readSp s).toNat < 0xF4) : checkPop s = .ok () := by
  rw [checkPop, Config.stackBase, if_neg]
  simpa [BitVec.le_def] using h

theorem checkPop_of_ge {s : State} (h : 0xF4 ≤ (readSp s).toNat) :
    checkPop s = .error ⟨.stackUnderflow, some ((readSp s).setWidth 9)⟩ := by
  rw [checkPop, Config.stackBase, if_pos]
  simpa [BitVec.le_def] using h

/-- A push never leaves the address space: the new stack pointer is an 8-bit value. -/
theorem pushByte_eq (s : State) (v : State → Byte) :
    pushByte s v = .ok { writeSp s (readSp s - 1#8) with
      mem := memPut s.mem (readSp s - 1#8).toNat (v (writeSp s (readSp s - 1#8))) } := by
  simp only [pushByte, readSp_writeSp, writeSp_mem, memWrite_of_le (byte_toNat_le _)]

theorem complete_error (ir : Byte) (s : State) (r : Raise) :
    complete ir s (.error r) = .next (takeFault s (some ir) r) := rfl

theorem complete_advance (ir : Byte) (s t : State) :
    complete ir s (.ok { state := t, redirected := false }) = .next (advance s.pc ir t) := rfl

theorem complete_redirect (ir : Byte) (s t : State) :
    complete ir s (.ok { state := t, redirected := true }) = .next t := rfl

/-! ## Register operand above 7 -/

section
variable {a b : Byte} {s : State}

theorem exec_ldi_badReg (h : 8 ≤ a.toNat) (imm : Byte) :
    exec (.ldi a imm) s = .next (takeFault s (some opLDI) ⟨.outOfBoundsRegister, some (a.setWidth 9)⟩) := by
  simp [exec, execLdi, handleLdi, regOperand_of_ge h, bind, Except.bind, complete_error]

theorem exec_prn_badReg (h : 8 ≤ a.toNat) :
    exec (.prn a) s = .next (takeFault s (some opPRN) ⟨.outOfBoundsRegister, some (a.setWidth 9)⟩) := by
  simp [exec, execPrn, handlePrn, regOperand_of_ge h, bind, Except.bind, complete_error]

theorem exec_add_badRegA (h : 8 ≤ a.toNat) :
    exec (.add a b) s = .next (takeFault s (some opADD) ⟨.outOfBoundsRegister, some (a.setWidth 9)⟩) := by
  simp [exec, execAdd, handleAlu, regOperand_of_ge h, bind, Except.bind, complete_error]

theorem exec_add_badRegB (h : a.toNat < 8) (hb : 8 ≤ b.toNat) :
    exec (.add a b) s = .next (takeFault s (some opADD) ⟨.outOfBoundsRegister, some (b.setWidth 9)⟩) := by
  simp [exec, execAdd, handleAlu, regOperand_of_lt h, regOperand_of_ge hb, bind, Except.bind, complete_error]

theorem exec_mul_badRegA (h : 8 ≤ a.toNat) :
    exec (.mul a b) s = .next (takeFault s (some opMUL) ⟨.outOfBoundsRegister, some (a.setWidth 9)⟩) := by
  simp [exec, execMul, handleAlu, regOperand_of_ge h, bind, Except.bind, complete_error]

theorem exec_mul_badRegB (h : a.toNat < 8) (hb : 8 ≤ b.toNat) :
    exec (.mul a b) s = .next (takeFault s (some opMUL) ⟨.outOfBoundsRegister, some (b.setWidth 9)⟩) := by
  simp [exec, execMul, handleAlu, regOperand_of_lt h, regOperand_of_ge hb, bind, Except.bind, complete_error]

theorem exec_push_badReg (h : 8 ≤ a.toNat) :
    exec (.push a) s = .next (takeFault s (some opPUSH) ⟨.outOfBoundsRegister, some (a.setWidth 9)⟩) := by
  simp [exec, execPush, handlePush, regOperand_of_ge h, bind, Except.bind, complete_error]

theorem exec_pop_badReg (h : 8 ≤ a.toNat) :
    exec (.pop a) s = .next (takeFault s (some opPOP) ⟨.outOfBoundsRegister, some (a.setWidth 9)⟩) := by
  simp [exec, execPop, handlePop, regOperand_of_ge h, bind, Except.bind, complete_error]

theorem exec_call_badReg (h : 8 ≤ a.toNat) :
    exec (.call a) s = .next (takeFault s (some opCALL) ⟨.outOfBoundsRegister, some (a.setWidth 9)⟩) := by
  simp [exec, execCall, handleCall, regOperand_of_ge h, bind, Except.bind, complete_error]

/-! ## Stack bounds -/

theorem exec_push_overflow (h : a.toNat < 8) (hs : readSp s = 0#8) :
    exec (.push a) s = .next (takeFault s (some opPUSH) ⟨.stackOverflow, some 0#9⟩) := by
  simp [exec, execPush, handlePush, regOperand_of_lt h, checkPush_of_eq hs, bind, Except.bind, complete_error]

theorem exec_call_overflow (h : a.toNat < 8) (hs : readSp s = 0#8) :
    exec (.call a) s = .next (takeFault s (some opCALL) ⟨.stackOverflow, some 0#9⟩) := by
  simp [exec, execCall, handleCall, regOperand_of_lt h, checkPush_of_eq hs, bind, Except.bind, complete_error]

theorem exec_pop_underflow (h : a.toNat < 8) (hs : 0xF4 ≤ (readSp s).toNat) :
    exec (.pop a) s = .next (takeFault s (some opPOP) ⟨.stackUnderflow, some ((readSp s).setWidth 9)⟩) := by
  simp [exec, execPop, handlePop, regOperand_of_lt h, checkPop_of_ge hs, bind, Except.bind, complete_error]

theorem exec_ret_underflow (hs : 0xF4 ≤ (readSp s).toNat) :
    exec .ret s = .next (takeFault s (some opRET) ⟨.stackUnderflow, some ((readSp s).setWidth 9)⟩) := by
  simp [exec, execRet, handleRet, checkPop_of_ge hs, bind, Except.bind, complete_error]

/-! ## Completion -/

theorem exec_hlt : exec .hlt s = .next { s with run := .halted, pc := s.pc + 1#9 } := rfl

theorem exec_ldi (h : a.toNat < 8) (imm : Byte) :
    exec (.ldi a imm) s = .next (advance s.pc opLDI (writeReg s ⟨a.toNat, h⟩ imm)) := by
  simp [exec, execLdi, handleLdi, regOperand_of_lt h, bind, Except.bind, pure, Except.pure, complete_advance, immOperand]

theorem exec_prn (h : a.toNat < 8) :
    exec (.prn a) s = .next (advance s.pc opPRN (emit s (readReg s ⟨a.toNat, h⟩))) := by
  simp [exec, execPrn, handlePrn, regOperand_of_lt h, bind, Except.bind, pure, Except.pure, complete_advance]

theorem exec_add (h : a.toNat < 8) (hb : b.toNat < 8) :
    exec (.add a b) s = .next (advance s.pc opADD
      (writeReg s ⟨a.toNat, h⟩ (alu .add (readReg s ⟨a.toNat, h⟩) (readReg s ⟨b.toNat, hb⟩)))) := by
  simp [exec, execAdd, handleAlu, regOperand_of_lt h, regOperand_of_lt hb, bind, Except.bind, pure, Except.pure,
    complete_advance]

theorem exec_mul (h : a.toNat < 8) (hb : b.toNat < 8) :
    exec (.mul a b) s = .next (advance s.pc opMUL
      (writeReg s ⟨a.toNat, h⟩ (alu .mul (readReg s ⟨a.toNat, h⟩) (readReg s ⟨b.toNat, hb⟩)))) := by
  simp [exec, execMul, handleAlu, regOperand_of_lt h, regOperand_of_lt hb, bind, Except.bind, pure, Except.pure,
    complete_advance]

theorem exec_push (h : a.toNat < 8) (hs : readSp s ≠ 0#8) :
    exec (.push a) s = .next (advance s.pc opPUSH { writeSp s (readSp s - 1#8) with
      mem := memPut s.mem (readSp s - 1#8).toNat (readReg (writeSp s (readSp s - 1#8)) ⟨a.toNat, h⟩) }) := by
  simp [exec, execPush, handlePush, regOperand_of_lt h, checkPush_of_ne hs, pushByte_eq, bind, Except.bind, pure,
    Except.pure, complete_advance]

theorem exec_pop (h : a.toNat < 8) (hs : (readSp s).toNat < 0xF4) :
    exec (.pop a) s =
      let v := memByte s.mem (readSp s).toNat
      let t := writeReg s ⟨a.toNat, h⟩ v
      .next (advance s.pc opPOP (writeSp t (readSp t + 1#8))) := by
  simp [exec, execPop, handlePop, regOperand_of_lt h, checkPop_of_lt hs, memRead_byte, bind, Except.bind, pure,
    Except.pure, complete_advance]

theorem exec_call (h : a.toNat < 8) (hs : readSp s ≠ 0#8) :
    exec (.call a) s = .next (setPc { writeSp s (readSp s - 1#8) with
      mem := memPut s.mem (readSp s - 1#8).toNat (returnAddress s.pc) }
      (readReg (writeSp s (readSp s - 1#8)) ⟨a.toNat, h⟩)) := by
  simp only [exec, execCall, handleCall, regOperand_of_lt h, checkPush_of_ne hs, pushByte_eq, bind, Except.bind, pure,
    Except.pure, complete_redirect]
  rfl

theorem exec_ret (hs : (readSp s).toNat < 0xF4) :
    exec .ret s =
      .next (writeSp (setPc s (memByte s.mem (readSp s).toNat)) (readSp s + 1#8)) := by
  simp only [exec, execRet, handleRet, checkPop_of_lt hs, memRead_byte, bind, Except.bind, pure, Except.pure,
    complete_redirect]
  rfl

end

/-! ## Everything an instruction can do, said once -/

/-- What an instruction can raise, and when: OutOfBounds(register) names the first register operand byte above 7. -/
def Raises (i : Instr) (s : State) (r : Raise) : Prop :=
  (∃ a, (regOperandsOf i).find? (fun a => 7 < a.toNat) = some a ∧ r = ⟨.outOfBoundsRegister, some (a.setWidth 9)⟩) ∨
  (opcodeOf i ∈ [opPUSH, opCALL] ∧ readSp s = 0#8 ∧ r = ⟨.stackOverflow, some 0#9⟩) ∨
  (opcodeOf i ∈ [opPOP, opRET] ∧ 0xF4 ≤ (readSp s).toNat ∧ r = ⟨.stackUnderflow, some ((readSp s).setWidth 9)⟩)

/-- What an instruction that completes does to each part of the state. -/
structure Completes (i : Instr) (s t : State) : Prop where
  /-- No record is written. -/
  fault : t.fault = s.fault
  /-- Only HLT moves the engine state. -/
  run : t.run = if i = .hlt then .halted else s.run
  /-- Only PUSH and CALL write memory, one cell. -/
  mem : t.mem = s.mem ∨ (opcodeOf i ∈ [opPUSH, opCALL] ∧ ∃ v, t.mem = memPut s.mem (readSp s - 1#8).toNat v)
  /-- Only PRN writes the output. -/
  out : t.out = s.out ∨ ∃ a, ∃ h : a.toNat < 8, i = .prn a ∧ t.out = s.out ++ [readReg s ⟨a.toNat, h⟩]
  /-- Only CALL and RET redirect. -/
  pc : match i with
    | .call a => ∃ h : a.toNat < 8, t.pc = (readReg t ⟨a.toNat, h⟩).setWidth 9
    | .ret => t.pc = (memByte s.mem (readSp s).toNat).setWidth 9
    | i => t.pc = s.pc + BitVec.ofNat 9 (instrSize (opcodeOf i))
  /-- The registers not written. -/
  regs : ∀ q : RegIdx, (match i with
    | .ldi a _ => q.val ≠ a.toNat
    | .mul a _ => q.val ≠ a.toNat
    | .add a _ => q.val ≠ a.toNat
    | .pop a => q.val ≠ a.toNat ∧ q ≠ 7
    | .push _ => q ≠ 7
    | .call _ => q ≠ 7
    | .ret => q ≠ 7
    | .prn _ => True
    | .hlt => True) → readReg t q = readReg s q

/-- Every instruction, in every state, takes a fault it can raise or completes; it always answers a next state. -/
theorem exec_cases (i : Instr) (s : State) :
    (∃ r, exec i s = .next (takeFault s (some (opcodeOf i)) r) ∧ Raises i s r) ∨
    (∃ t, exec i s = .next t ∧ Completes i s t) := by
  have bad (a : Byte) (hm : (regOperandsOf i).find? (fun a => 7 < a.toNat) = some a) :
      Raises i s ⟨.outOfBoundsRegister, some (a.setWidth 9)⟩ := .inl ⟨a, hm, rfl⟩
  cases i with
  | hlt =>
    exact .inr ⟨_, exec_hlt, by constructor <;> simp [readReg, opcodeOf]⟩
  | ldi a imm =>
    by_cases h : a.toNat < 8
    · refine .inr ⟨_, exec_ldi h imm, by constructor <;> (simp [opcodeOf, readReg_writeReg, Fin.ext_iff]; try omega)⟩
    · exact .inl ⟨_, exec_ldi_badReg (by omega) imm, bad a (by simp [regOperandsOf, show 7 < a.toNat by omega])⟩
  | prn a =>
    by_cases h : a.toNat < 8
    · exact .inr ⟨_, exec_prn h, by constructor <;> simp [opcodeOf, h]⟩
    · exact .inl ⟨_, exec_prn_badReg (by omega), bad a (by simp [regOperandsOf, show 7 < a.toNat by omega])⟩
  | add a b =>
    by_cases h : a.toNat < 8
    · by_cases hb : b.toNat < 8
      · exact .inr ⟨_, exec_add h hb, by constructor <;> (simp [opcodeOf, readReg_writeReg, Fin.ext_iff]; try omega)⟩
      · exact .inl ⟨_, exec_add_badRegB h (by omega), bad b (by simp [regOperandsOf, show 7 < b.toNat by omega, show ¬ 7 < a.toNat by omega])⟩
    · exact .inl ⟨_, exec_add_badRegA (by omega), bad a (by simp [regOperandsOf, show 7 < a.toNat by omega])⟩
  | mul a b =>
    by_cases h : a.toNat < 8
    · by_cases hb : b.toNat < 8
      · exact .inr ⟨_, exec_mul h hb, by constructor <;> (simp [opcodeOf, readReg_writeReg, Fin.ext_iff]; try omega)⟩
      · exact .inl ⟨_, exec_mul_badRegB h (by omega), bad b (by simp [regOperandsOf, show 7 < b.toNat by omega, show ¬ 7 < a.toNat by omega])⟩
    · exact .inl ⟨_, exec_mul_badRegA (by omega), bad a (by simp [regOperandsOf, show 7 < a.toNat by omega])⟩
  | push a =>
    by_cases h : a.toNat < 8
    · by_cases hs : readSp s = 0#8
      · exact .inl ⟨_, exec_push_overflow h hs, .inr (.inl ⟨by simp [opcodeOf], hs, rfl⟩)⟩
      · refine .inr ⟨_, exec_push h hs, ?_⟩
        constructor
        case mem => exact .inr ⟨by simp [opcodeOf], _, rfl⟩
        case regs => exact fun q hq => (readReg_writeSp s q (readSp s - 1#8)).trans (if_neg hq)
        all_goals simp [opcodeOf]
    · exact .inl ⟨_, exec_push_badReg (by omega), bad a (by simp [regOperandsOf, show 7 < a.toNat by omega])⟩
  | pop a =>
    by_cases h : a.toNat < 8
    · by_cases hs : 0xF4 ≤ (readSp s).toNat
      · exact .inl ⟨_, exec_pop_underflow h hs, .inr (.inr ⟨by simp [opcodeOf], hs, rfl⟩)⟩
      · refine .inr ⟨_, exec_pop h (by omega), ?_⟩
        constructor
        case regs =>
          intro q hq
          simp [readReg_writeSp, readReg_writeReg, Fin.ext_iff, hq.1]
          exact fun e => absurd (Fin.ext e) hq.2
        all_goals simp [opcodeOf]
    · exact .inl ⟨_, exec_pop_badReg (by omega), bad a (by simp [regOperandsOf, show 7 < a.toNat by omega])⟩
  | call a =>
    by_cases h : a.toNat < 8
    · by_cases hs : readSp s = 0#8
      · exact .inl ⟨_, exec_call_overflow h hs, .inr (.inl ⟨by simp [opcodeOf], hs, rfl⟩)⟩
      · refine .inr ⟨_, exec_call h hs, ?_⟩
        constructor
        case mem => exact .inr ⟨by simp [opcodeOf], _, rfl⟩
        case regs => exact fun q hq => (readReg_writeSp s q (readSp s - 1#8)).trans (if_neg hq)
        case pc => exact ⟨h, rfl⟩
        all_goals simp
    · exact .inl ⟨_, exec_call_badReg (by omega), bad a (by simp [regOperandsOf, show 7 < a.toNat by omega])⟩
  | ret =>
    by_cases hs : 0xF4 ≤ (readSp s).toNat
    · exact .inl ⟨_, exec_ret_underflow hs, .inr (.inr ⟨by simp [opcodeOf], hs, rfl⟩)⟩
    · refine .inr ⟨_, exec_ret (by omega), ?_⟩
      constructor
      case regs => intro q hq; simp [readReg_writeSp, hq]
      all_goals simp

end Sys2Proof.Machine
end

