-- ==== Sys2Proof/Laws/PerInstr.lean ====
section
/-! SUPPORT. Statements about every instruction as syntax, one lemma per constructor. -/

namespace Sys2Proof.Laws.EncodedLength

/-- The encoding begins with the opcode byte and has the length the opcode byte alone gives
(spec/30_encoding.md R60, R67, R72). -/
def Statement (i : Instr) : Prop :=
  (encode i).head? = some (opcodeOf i) ∧ (encode i).length = instrSize (opcodeOf i)

theorem hlt : Statement .hlt := by simp [Statement, encode, operandsOf, opcodeOf]
theorem ldi (a imm : Byte) : Statement (.ldi a imm) := by simp [Statement, encode, operandsOf, opcodeOf]
theorem prn (a : Byte) : Statement (.prn a) := by simp [Statement, encode, operandsOf, opcodeOf]
theorem mul (a b : Byte) : Statement (.mul a b) := by simp [Statement, encode, operandsOf, opcodeOf]
theorem add (a b : Byte) : Statement (.add a b) := by simp [Statement, encode, operandsOf, opcodeOf]
theorem push (a : Byte) : Statement (.push a) := by simp [Statement, encode, operandsOf, opcodeOf]
theorem pop (a : Byte) : Statement (.pop a) := by simp [Statement, encode, operandsOf, opcodeOf]
theorem call (a : Byte) : Statement (.call a) := by simp [Statement, encode, operandsOf, opcodeOf]
theorem ret : Statement .ret := by simp [Statement, encode, operandsOf, opcodeOf]

end Sys2Proof.Laws.EncodedLength
end

