-- ==== Sys2Proof/Laws/Step.lean ====
section
/-! SUPPORT. What a step can do, said once: its inversion, and when the fetch stages succeed or raise. -/

namespace Sys2Proof.Machine

theorem fetchDecode_of_pc_gt {s : State} (h : 255 < s.pc.toNat) :
    fetchDecode s = .error (none, ⟨.outOfBoundsMemory, some s.pc⟩) := by
  simp [fetchDecode, memRead_of_gt h]

theorem fetchDecode_of_pc_top {s : State} (h : s.pc.toNat = 254 ∨ s.pc.toNat = 255) :
    fetchDecode s = .error (some (memByte s.mem s.pc.toNat), ⟨.outOfBoundsMemory, some 256#9⟩) := by
  rcases h with h | h <;> simp [fetchDecode, h, memRead]

theorem fetchDecode_of_pc_le {s : State} (h : s.pc.toNat ≤ 253) :
    fetchDecode s =
      match decode (memByte s.mem s.pc.toNat) (memByte s.mem (s.pc.toNat + 1)) (memByte s.mem (s.pc.toNat + 2)) with
      | .error _ => .error (some (memByte s.mem s.pc.toNat), ⟨.decodeError, none⟩)
      | .ok i => .ok i := by
  simp only [fetchDecode, memRead_of_le (show s.pc.toNat ≤ 255 by omega),
    memRead_of_le (show s.pc.toNat + 1 ≤ 255 by omega), memRead_of_le (show s.pc.toNat + 2 ≤ 255 by omega)] <;> rfl

/-- The fetch stages succeed exactly where all three bytes exist and decode. -/
theorem fetchDecode_ok_iff {s : State} {i : Instr} :
    fetchDecode s = .ok i ↔
      s.pc.toNat ≤ 253 ∧
      decode (memByte s.mem s.pc.toNat) (memByte s.mem (s.pc.toNat + 1)) (memByte s.mem (s.pc.toNat + 2)) = .ok i := by
  constructor
  · intro h
    by_cases h1 : 255 < s.pc.toNat
    · rw [fetchDecode_of_pc_gt h1] at h; cases h
    by_cases h2 : s.pc.toNat = 254 ∨ s.pc.toNat = 255
    · rw [fetchDecode_of_pc_top h2] at h; cases h
    have h3 : s.pc.toNat ≤ 253 := by omega
    rw [fetchDecode_of_pc_le h3] at h
    refine ⟨h3, ?_⟩
    split at h
    · cases h
    · rename_i hd
      cases h
      exact hd
  · rintro ⟨h, hd⟩
    rw [fetchDecode_of_pc_le h, hd]

/-- Every way the fetch stages raise. -/
theorem fetchDecode_error_cases {s : State} {e : Option Byte × Raise} (h : fetchDecode s = .error e) :
    (255 < s.pc.toNat ∧ e = (none, ⟨.outOfBoundsMemory, some s.pc⟩)) ∨
    ((s.pc.toNat = 254 ∨ s.pc.toNat = 255) ∧
      e = (some (memByte s.mem s.pc.toNat), ⟨.outOfBoundsMemory, some 256#9⟩)) ∨
    (s.pc.toNat ≤ 253 ∧ memByte s.mem s.pc.toNat ∉ opcodes ∧
      e = (some (memByte s.mem s.pc.toNat), ⟨.decodeError, none⟩)) := by
  by_cases h1 : 255 < s.pc.toNat
  · rw [fetchDecode_of_pc_gt h1] at h; cases h; exact .inl ⟨h1, rfl⟩
  by_cases h2 : s.pc.toNat = 254 ∨ s.pc.toNat = 255
  · rw [fetchDecode_of_pc_top h2] at h; cases h; exact .inr (.inl ⟨h2, rfl⟩)
  have h3 : s.pc.toNat ≤ 253 := by omega
  rw [fetchDecode_of_pc_le h3] at h
  split at h
  · rename_i hd
    cases h
    exact .inr (.inr ⟨h3, (decode_error hd).1, rfl⟩)
  · cases h

/-- A step from Running, as one equation. -/
theorem step_of_running {s : State} (h : s.run = .running) :
    step s = match fetchDecode s with
      | .error e => .next (takeFault s e.1 e.2)
      | .ok i => exec i s := by
  unfold step
  rw [h] <;> rfl

/-- Everything a step that answers a next state can do. -/
theorem step_cases {s t : State} (h : step s = .next t) :
    s.run = .running ∧
      ((∃ e, fetchDecode s = .error e ∧ t = takeFault s e.1 e.2) ∨
       ∃ i, fetchDecode s = .ok i ∧ exec i s = .next t) := by
  cases hr : s.run with
  | halted => simp [step, hr] at h
  | faulted => simp [step, hr] at h
  | running =>
    rw [step_of_running hr] at h
    refine ⟨rfl, ?_⟩
    split at h
    · rename_i e he
      cases h
      exact .inl ⟨e, he, rfl⟩
    · rename_i i hi
      exact .inr ⟨i, hi, h⟩

/-- A fault a step can take: of the fetch stages, or of the decoded instruction. -/
def StepRaises (s : State) (o : Option Byte) (r : Raise) : Prop :=
  fetchDecode s = .error (o, r) ∨ ∃ i, fetchDecode s = .ok i ∧ o = some (opcodeOf i) ∧ Raises i s r

/-- The inversion of a step down to what each part of the state becomes. -/
theorem step_inv {s t : State} (h : step s = .next t) :
    s.run = .running ∧
      ((∃ o r, t = takeFault s o r ∧ StepRaises s o r) ∨ ∃ i, fetchDecode s = .ok i ∧ Completes i s t) := by
  obtain ⟨hr, ⟨e, he, rfl⟩ | ⟨i, hi, hx⟩⟩ := step_cases h
  · exact ⟨hr, .inl ⟨e.1, e.2, rfl, .inl he⟩⟩
  · refine ⟨hr, ?_⟩
    rcases exec_cases i s with ⟨r, hr', hc⟩ | ⟨t', ht, hc⟩
    · rw [hr'] at hx
      cases hx
      exact .inl ⟨_, r, rfl, .inr ⟨i, hi, rfl, hc⟩⟩
    · rw [ht] at hx
      cases hx
      exact .inr ⟨i, hi, hc⟩

/-- In Running a step always exists. -/
theorem step_total {s : State} (h : s.run = .running) : ∃ t, step s = .next t := by
  rw [step_of_running h]
  split
  · exact ⟨_, rfl⟩
  · rename_i i _
    rcases exec_cases i s with ⟨r, hr, _⟩ | ⟨t, ht, _⟩
    · exact ⟨_, hr⟩
    · exact ⟨_, ht⟩

/-- The opcode byte of a decoded instruction is the byte at pc. -/
theorem opcodeOf_of_fetchDecode {s : State} {i : Instr} (h : fetchDecode s = .ok i) :
    opcodeOf i = memByte s.mem s.pc.toNat :=
  opcodeOf_of_decode (fetchDecode_ok_iff.mp h).2

end Sys2Proof.Machine
end

