-- ==== Sys2Proof/Tests/Slice0.lean ====
section
/-! SUPPORT. The model's own tests. Expected results are the spec's: the encodings of spec/30_encoding.md and the vectors
E, V of spec/95_test_vectors.md, named in each comment. Then one witness per obligation that has hypotheses. -/

namespace Sys2Proof.Tests

open Sys2Proof.Machine

/-! ## Decoding: every constructor, its word written out from R65 bit by bit -/

theorem test_decode_hlt : decode 0b00000001#8 0x00#8 0x00#8 = .ok .hlt := rfl
theorem test_decode_ldi : decode 0b10000010#8 0b00000000#8 0b00001000#8 = .ok (.ldi 0#8 8#8) := rfl
theorem test_decode_prn : decode 0b01000111#8 0b00000010#8 0x99#8 = .ok (.prn 2#8) := rfl
theorem test_decode_mul : decode 0b10100010#8 0b00000000#8 0b00000001#8 = .ok (.mul 0#8 1#8) := rfl
theorem test_decode_add : decode 0b10100000#8 0b00000111#8 0b00000000#8 = .ok (.add 7#8 0#8) := rfl
theorem test_decode_push : decode 0b01000101#8 0b00000111#8 0x00#8 = .ok (.push 7#8) := rfl
theorem test_decode_pop : decode 0b01000110#8 0b00000001#8 0x00#8 = .ok (.pop 1#8) := rfl
theorem test_decode_call : decode 0b01010000#8 0b00000001#8 0x00#8 = .ok (.call 1#8) := rfl
theorem test_decode_ret : decode 0b00010001#8 0x00#8 0x00#8 = .ok .ret := rfl
/-- V3: 0xA1, SUB in LS-8, is no opcode here. -/
theorem test_decode_rejects_sub : decode 0xA1#8 0x00#8 0x01#8 = .error (.unknownOpcode 0xA1#8) := rfl
/-- R65: no two opcodes are equal. -/
theorem test_opcodes_distinct : opcodes.Nodup := by decide
/-- R72's example: LDI R0,8. -/
theorem test_encode_ldi : encode (.ldi 0#8 8#8) = [0b10000010#8, 0b00000000#8, 0b00001000#8] := rfl
/-- The table's numbering: the opcode is bits 7..0, pc+1 is bits 15..8, pc+2 is bits 23..16. -/
theorem test_tableWord_ldi : decodeTableWord 24 0x080382 = some (.ldi 3#8 8#8) := by decide
theorem test_tableWord_ret : decodeTableWord 8 0x11 = some .ret := by decide

/-! ## WellFormed: one ill-formed term per check -/

theorem test_wf_all_registers_valid : WellFormed (.mul 7#8 0#8) = true := by decide
theorem test_ill_ldi : WellFormed (.ldi 8#8 1#8) = false := by decide
theorem test_ill_prn : WellFormed (.prn 9#8) = false := by decide
theorem test_ill_mul_b : WellFormed (.mul 0#8 9#8) = false := by decide
theorem test_ill_mul_a : WellFormed (.mul 8#8 0#8) = false := by decide
theorem test_ill_add_a : WellFormed (.add 8#8 0#8) = false := by decide
theorem test_ill_add_b : WellFormed (.add 0#8 255#8) = false := by decide
theorem test_ill_push : WellFormed (.push 8#8) = false := by decide
theorem test_ill_pop : WellFormed (.pop 10#8) = false := by decide
theorem test_ill_call : WellFormed (.call 12#8) = false := by decide

/-! ## One step -/

/-- The reset state with bytes at an address and pc there. -/
def code (pc : PcWord) (bytes : List Byte) : State :=
  { State.reset with pc := pc, mem := putBytes State.reset.mem pc.toNat bytes }

/-- What a test reads from a step's outcome. -/
def after {α : Type} (f : State → α) : StepOutcome → Option α
  | .next t => some (f t)
  | .fault _ => none
  | .refused _ => none

/-- V12 with E1's value. -/
theorem test_ldi : after (fun t => (readReg t 0, t.pc)) (step (code 0#9 [0x82#8, 0#8, 8#8])) = some (8#8, 3#9) := by decide
/-- V15. -/
theorem test_ldi_badReg :
    after (fun t => (t.run, t.fault)) (step (code 0#9 [0x82#8, 8#8, 1#8])) =
      some (.faulted, some ⟨.outOfBoundsRegister, 0#9, some 0x82#8, some 8#9⟩) := by decide
/-- V17. -/
theorem test_prn :
    after (fun t => (t.out, t.pc)) (step { writeReg (code 20#9 [0x47#8, 2#8, 0x99#8]) 2 200#8 with out := [1#8] }) =
      some ([1#8, 200#8], 22#9) := by decide
/-- V18: R7 is printed like any register. -/
theorem test_prn_sp : after (fun t => t.out) (step (code 0#9 [0x47#8, 7#8])) = some [244#8] := by decide
/-- V21. -/
theorem test_add_wraps :
    after (fun t => (readReg t 0, readReg t 1)) (step (writeReg (writeReg (code 0#9 [0xA0#8, 0#8, 1#8]) 0 200#8) 1 100#8)) =
      some (44#8, 100#8) := by decide
/-- V31: operand a is checked first. -/
theorem test_add_checks_a_first :
    after (fun t => t.fault) (step (code 0#9 [0xA0#8, 8#8, 9#8])) =
      some (some ⟨.outOfBoundsRegister, 0#9, some 0xA0#8, some 8#9⟩) := by decide
/-- V27. -/
theorem test_mul_wraps :
    after (fun t => readReg t 0) (step (writeReg (writeReg (code 0#9 [0xA2#8, 0#8, 1#8]) 0 255#8) 1 255#8)) =
      some 1#8 := by decide
/-- V32. -/
theorem test_mul_badReg :
    after (fun t => t.fault) (step (code 0#9 [0xA2#8, 0#8, 9#8])) =
      some (some ⟨.outOfBoundsRegister, 0#9, some 0xA2#8, some 9#9⟩) := by decide
/-- V36: PUSH R7 stores the decremented SP. -/
theorem test_push_sp :
    after (fun t => (readReg t 7, memByte t.mem 0xF3, t.pc)) (step (code 0#9 [0x45#8, 7#8])) =
      some (0xF3#8, 0xF3#8, 2#9) := by decide
/-- V35. -/
theorem test_push_overflow :
    after (fun t => (t.fault, memByte t.mem 255)) (step (writeReg (code 9#9 [0x45#8, 0#8]) 7 0#8)) =
      some (some ⟨.stackOverflow, 9#9, some 0x45#8, some 0#9⟩, 0#8) := by decide
/-- V42: POP R7 wraps past the popped byte. -/
theorem test_pop_sp :
    after (fun t => (readReg t 7, memByte t.mem 0xF3))
      (step { writeReg (code 0#9 [0x46#8, 7#8]) 7 0xF3#8 with mem := memPut (code 0#9 [0x46#8, 7#8]).mem 0xF3 0xFF#8 }) =
      some (0#8, 0xFF#8) := by decide
/-- V40. -/
theorem test_pop_underflow :
    after (fun t => t.fault) (step (writeReg (code 0#9 [0x46#8, 1#8]) 7 0xFE#8)) =
      some (some ⟨.stackUnderflow, 0#9, some 0x46#8, some 0xFE#9⟩) := by decide
/-- V44. -/
theorem test_hlt : after (fun t => (t.run, t.pc)) (step (code 5#9 [0x01#8])) = some (.halted, 6#9) := by decide
/-- V5: HLT at 254 faults in its operand read. -/
theorem test_hlt_at_254 :
    after (fun t => (t.run, t.fault)) (step (code 254#9 [0x01#8])) =
      some (.faulted, some ⟨.outOfBoundsMemory, 254#9, some 0x01#8, some 256#9⟩) := by decide
/-- V45. -/
theorem test_call :
    after (fun t => (readReg t 7, memByte t.mem 0xF3, t.pc)) (step (writeReg (code 3#9 [0x50#8, 1#8]) 1 8#8)) =
      some (0xF3#8, 5#8, 8#9) := by decide
/-- V48: CALL R7 jumps to the decremented SP. -/
theorem test_call_sp :
    after (fun t => (readReg t 7, memByte t.mem 0xF2, t.pc)) (step (writeReg (code 5#9 [0x50#8, 7#8]) 7 0xF3#8)) =
      some (0xF2#8, 7#8, 0xF2#9) := by decide
/-- V50. -/
theorem test_ret :
    after (fun t => (readReg t 7, t.pc))
      (step { writeReg (code 0#9 [0x11#8]) 7 0xF3#8 with mem := memPut (code 0#9 [0x11#8]).mem 0xF3 5#8 }) =
      some (0xF4#8, 5#9) := by decide
/-- V51. -/
theorem test_ret_underflow :
    after (fun t => t.fault) (step (code 0#9 [0x11#8])) =
      some (some ⟨.stackUnderflow, 0#9, some 0x11#8, some 0xF4#9⟩) := by decide
/-- V1: reset with nothing loaded. -/
theorem test_reset_steps_to_decodeError :
    after (fun t => (t.run, t.fault)) (step State.reset) =
      some (.faulted, some ⟨.decodeError, 0#9, some 0#8, none⟩) := by decide
/-- V8. -/
theorem test_fetch_at_256 :
    after (fun t => t.fault) (step (code 256#9 [])) = some (some ⟨.outOfBoundsMemory, 256#9, none, some 256#9⟩) := by decide
/-- V7. -/
theorem test_pc_reaches_256 : after (fun t => t.pc) (step (code 253#9 [0x82#8, 0#8, 7#8])) = some 256#9 := by decide
/-- V11. -/
theorem test_no_step_when_halted : after (fun _ => ()) (step { State.reset with run := .halted }) = none := by decide
/-- An instruction given as a table word runs as the first after reset: V14. -/
theorem test_withFetchWord :
    after (fun t => (readReg t 7, t.pc)) (step (State.reset.withFetchWord 24 0x800782)) = some (0x80#8, 3#9) := by decide

/-! ## The host's side -/

/-- E7: the two files load the same six bytes. -/
theorem test_loader_comments :
    parseProgram ("# print 8\n10000010 # LDI R0,8\n00000000\n00001000\n\n01000111 # PRN R0\n00000000\n  00000001 # HLT\n".toList)
      = .ok [0x82#8, 0#8, 8#8, 0x47#8, 0#8, 1#8] := by decide +kernel
/-- R163: a token that is not binary, and a value above 255. -/
theorem test_loader_errors :
    parseProgram "00000002".toList = .error .nonBinary ∧ parseProgram "100000000".toList = .error .valueTooLarge := ⟨rfl, rfl⟩
/-- P7's output, as R158 writes it. -/
theorem test_outputText : outputText [44#8, 0#8, 200#8] = "44\n0\n200\n".toList := by decide
/-- R157: the opcode is printed in binary after a DecodeError; how many digits is the model's (log 14). -/
theorem test_diagnosticOpcode : after diagnosticOpcode (step State.reset) = some (some "00000000".toList) := by decide
/-- R71's operand order. -/
theorem test_asmText : asmText (.ldi 0#8 8#8) = "LDI R0, 8".toList := by decide

/-! ## Witnesses: states and operands that meet the hypotheses of each statement, at the edges of its clauses -/

/-- A state with SP set, code at pc. -/
def codeSp (pc : PcWord) (bytes : List Byte) (sp : Byte) : State := writeReg (code pc bytes) 7 sp

theorem witness_EncodedInstructionDecodesToItself :
    encode (.call 255#8) <+: [0x50#8, 255#8, 0x33#8] ∧ encode (.add 7#8 8#8) <+: [0xA0#8, 7#8, 8#8] ∧
    encode .ret <+: [0x11#8, 0#8, 0#8] := by decide
theorem witness_DecodedInstructionEncodesBack : decode 0x45#8 255#8 0x33#8 = .ok (.push 255#8) := rfl
theorem witness_UnknownOpcodesAreRejected : (0x00#8 = 0x00#8 ∨ 0xC0 ≤ (0x00#8).toNat) ∧
    (0xC0#8 = 0x00#8 ∨ 0xC0 ≤ (0xC0#8).toNat) := by decide
theorem witness_StreamDecodingTakesOneInstruction :
    0 < (encode .hlt).length ∧ 2 < (encode (.ldi 0#8 0#8)).length := by decide
theorem witness_StepRunsDecodedInstruction : ∃ (s : State) (i : Instr), Executing s ∧
    decode (memByte s.mem s.pc.toNat) (memByte s.mem (s.pc.toNat + 1)) (memByte s.mem (s.pc.toNat + 2)) = .ok i :=
  ⟨code 253#9 [0x82#8, 9#8, 7#8], .ldi 9#8 7#8, by decide, rfl⟩
theorem witness_StepRunsInstructionEncodedAtPc : ∃ (s : State) (i : Instr), Executing s ∧
    ∀ k (h : k < (encode i).length), memByte s.mem (s.pc.toNat + k) = (encode i)[k] :=
  ⟨code 253#9 [0x82#8, 1#8, 7#8], .ldi 1#8 7#8, by decide, by decide⟩
theorem witness_ReadsAboveMemoryFault :
    (code 256#9 []).run = .running ∧ 255 < (code 256#9 []).pc.toNat ∧
    (code 255#9 [1#8]).run = .running ∧ (code 255#9 [1#8]).pc.toNat = 255 ∧
    (code 254#9 [1#8]).run = .running ∧ (code 254#9 [1#8]).pc.toNat = 254 := by decide
theorem witness_UnknownOpcodeStopsTheRun : Executing (code 253#9 [0xC0#8]) ∧
    memByte (code 253#9 [0xC0#8]).mem 253 ∉
      [0x01#8, 0x82#8, 0x47#8, 0xA2#8, 0xA0#8, 0x45#8, 0x46#8, 0x50#8, 0x11#8] := by decide
theorem witness_FetchWordRunsAsTheNextInstruction :
    Memory.wf (code 253#9 [1#8]).mem = true ∧ Executing (code 253#9 [1#8]) ∧
    decodeTableWord 24 0xFF0782 = some (.ldi 7#8 0xFF#8) := by decide
/-- One state per branch of the chain, each at an edge, with that branch's condition and no earlier one: fetch, operand
read, decode, register a, register b, push bound, pop bound, none. -/
theorem witness_FirstFailingCheckDecides :
    ((code 256#9 []).run = .running ∧ 255 < (code 256#9 []).pc.toNat) ∧
    ((code 254#9 [0x00#8]).run = .running ∧ (code 254#9 [0x00#8]).pc.toNat = 254) ∧
    (Executing (code 253#9 [0x00#8]) ∧ memByte (code 253#9 [0x00#8]).mem 253 ∉
      [0x01#8, 0x82#8, 0x47#8, 0xA2#8, 0xA0#8, 0x45#8, 0x46#8, 0x50#8, 0x11#8]) ∧
    (let s := codeSp 0#9 [0x45#8, 8#8] 0#8;
      Executing s ∧ memByte s.mem 0 = 0x45#8 ∧ 7 < (memByte s.mem 1).toNat) ∧
    (let s := code 0#9 [0xA0#8, 7#8, 8#8];
      Executing s ∧ memByte s.mem 0 = 0xA0#8 ∧ ¬ 7 < (memByte s.mem 1).toNat ∧ 7 < (memByte s.mem 2).toNat) ∧
    (let s := codeSp 0#9 [0x45#8, 7#8] 0#8;
      Executing s ∧ memByte s.mem 0 = 0x45#8 ∧ ¬ 7 < (memByte s.mem 1).toNat ∧ readReg s 7 = 0#8) ∧
    (let s := codeSp 0#9 [0x46#8, 7#8] 0xF4#8;
      Executing s ∧ memByte s.mem 0 = 0x46#8 ∧ ¬ 7 < (memByte s.mem 1).toNat ∧ 0xF4 ≤ (readReg s 7).toNat) ∧
    (let s := codeSp 0#9 [0x11#8] 0xF3#8;
      Executing s ∧ memByte s.mem 0 = 0x11#8 ∧ ¬ 0xF4 ≤ (readReg s 7).toNat) := by decide
theorem witness_StepExistsExactlyWhenRunning :
    (∃ t, step State.reset = .next t) ∧ ({ State.reset with run := .halted } : State).run = .halted ∧
    ({ State.reset with run := .faulted } : State).run = .faulted := ⟨⟨_, rfl⟩, rfl, rfl⟩
theorem witness_RunStateMovesByTable :
    (∃ t, step (code 253#9 [1#8]) = .next t) ∧ (∃ t, step (code 254#9 [1#8]) = .next t) ∧
    (∃ t, step (code 0#9 [0x47#8, 1#8]) = .next t) ∧ ({ State.reset with run := .faulted } : State).run = .faulted :=
  ⟨⟨_, rfl⟩, ⟨_, rfl⟩, ⟨_, rfl⟩, rfl⟩
/-- For FaultWritesOnlyRunAndRecord and AluErrorIsNeverRaised. -/
theorem witness_faulting_steps :
    (∃ t, step (code 256#9 []) = .next t ∧ t.run = .faulted) ∧
    (∃ t r, step (codeSp 3#9 [0x50#8, 1#8] 0#8) = .next t ∧ t.run = .faulted ∧ t.fault = some r) :=
  ⟨⟨_, rfl, rfl⟩, ⟨_, _, rfl, rfl, rfl⟩⟩
/-- One faulting step per row of R140's table, and per clause of a row: DecodeError; OutOfBounds(memory) at its two ends;
OutOfBounds(register) by operand a and by operand b; StackOverflow; StackUnderflow at its two ends. -/
theorem witness_FaultRecordHasTheFieldsOfItsCause :
    after (fun t => (t.run, t.fault)) (step (code 253#9 [0xC0#8])) =
      some (.faulted, some ⟨.decodeError, 253#9, some 0xC0#8, none⟩) ∧
    after (fun t => (t.run, t.fault)) (step (code 254#9 [0x01#8])) =
      some (.faulted, some ⟨.outOfBoundsMemory, 254#9, some 0x01#8, some 256#9⟩) ∧
    after (fun t => (t.run, t.fault)) (step (code 256#9 [])) =
      some (.faulted, some ⟨.outOfBoundsMemory, 256#9, none, some 256#9⟩) ∧
    after (fun t => (t.run, t.fault)) (step (code 253#9 [0xA0#8, 255#8, 8#8])) =
      some (.faulted, some ⟨.outOfBoundsRegister, 253#9, some 0xA0#8, some 255#9⟩) ∧
    after (fun t => (t.run, t.fault)) (step (code 253#9 [0xA2#8, 7#8, 8#8])) =
      some (.faulted, some ⟨.outOfBoundsRegister, 253#9, some 0xA2#8, some 8#9⟩) ∧
    after (fun t => (t.run, t.fault)) (step (codeSp 3#9 [0x50#8, 7#8] 0#8)) =
      some (.faulted, some ⟨.stackOverflow, 3#9, some 0x50#8, some 0#9⟩) ∧
    after (fun t => (t.run, t.fault)) (step (codeSp 3#9 [0x46#8, 7#8] 0xF4#8)) =
      some (.faulted, some ⟨.stackUnderflow, 3#9, some 0x46#8, some 0xF4#9⟩) ∧
    after (fun t => (t.run, t.fault)) (step (codeSp 3#9 [0x11#8] 0xFF#8)) =
      some (.faulted, some ⟨.stackUnderflow, 3#9, some 0x11#8, some 0xFF#9⟩) ∧
    (code 256#9 []).pc.toNat ≤ 256 := by decide
theorem witness_NextPcByOpcode :
    (Executing (code 253#9 [0x01#8]) ∧ ∃ t, step (code 253#9 [0x01#8]) = .next t ∧ t.run ≠ .faulted) ∧
    (Executing (code 253#9 [0x50#8, 7#8]) ∧ ∃ t, step (code 253#9 [0x50#8, 7#8]) = .next t ∧ t.run ≠ .faulted) ∧
    (Executing (codeSp 0#9 [0x11#8] 0xF3#8) ∧ ∃ t, step (codeSp 0#9 [0x11#8] 0xF3#8) = .next t ∧ t.run ≠ .faulted) :=
  ⟨⟨by decide, _, rfl, by decide⟩, ⟨by decide, _, rfl, by decide⟩, ⟨by decide, _, rfl, by decide⟩⟩
theorem witness_PcNeverWraps :
    (code 253#9 [0x82#8, 0#8, 7#8]).pc.toNat ≤ 256 ∧
    ∃ t, step (code 253#9 [0x82#8, 0#8, 7#8]) = .next t ∧ t.pc.toNat = 256 ∧ t.run ≠ .faulted :=
  ⟨by decide, _, rfl, by decide, by decide⟩
theorem witness_StepKeepsTheInvariant :
    (code 253#9 [0x82#8, 0#8, 7#8]).Inv ∧ ∃ t, step (code 253#9 [0x82#8, 0#8, 7#8]) = .next t :=
  ⟨⟨by decide, by decide, by decide, fun _ h => by cases h⟩, _, rfl⟩
theorem witness_EveryRunOfEveryImageKeepsTheInvariant : ∃ s0 s,
    loadImage State.reset [0x82#8, 0#8, 8#8] = .ok s0 ∧ Sys2Proof.core.run 1 s0 = .next s := ⟨_, _, rfl, rfl⟩
theorem witness_AccessesAreBoundsChecked : Memory.wf [(0, 1#8), (255, 2#8)] = true ∧ 255 < 256 ∧ 255 ≤ 255 := by decide
theorem witness_ReadReturnsTheLatestWrite : Memory.wf [(3, 1#8)] = true ∧
    ∀ w ∈ [(255, 7#8), (0, 2#8), (255, 0#8)], w.1 ≤ 255 := by decide
theorem witness_StepWritesOnlyTheStackCell : (∃ t, step (codeSp 0#9 [0x45#8, 0#8] 1#8) = .next t) ∧
    (∃ t, step (code 0#9 [0x46#8, 0#8]) = .next t) ∧
    memByte (code 0#9 [0x46#8, 0#8]).mem 0 ∉ [0x45#8, 0x50#8] := ⟨⟨_, rfl⟩, ⟨_, rfl⟩, by decide⟩
theorem witness_PushOverItsOwnOpcodeRunsTheOldByte :
    let s := codeSp 9#9 [0x45#8, 0#8] 10#8
    (Memory.wf s.mem = true ∧ Executing s ∧ memByte s.mem s.pc.toNat = 0x45#8 ∧
      (memByte s.mem (s.pc.toNat + 1)).toNat = 0 ∧ readReg s 7 ≠ 0#8 ∧ (readReg s 7 - 1#8).toNat = s.pc.toNat) ∧
    readReg s 0 ∉ opcodes := by decide
theorem witness_OnlyPrnExtendsTheOutput : ∃ t, step (code 253#9 [0x47#8, 7#8]) = .next t ∧ t.out ≠ [] :=
  ⟨_, rfl, by decide⟩
/-- For the statements of LDI and PRN: the clauses' edges are operand bytes 7 and 8. -/
theorem witness_register_operand : Executing (code 253#9 []) ∧ 7 < (8#8).toNat ∧ (7#8).toNat = (7 : RegIdx).val := by decide
/-- For ADD and MUL: a = 8; a = 7 with b = 8; a = b = 7. -/
theorem witness_alu_operands : Executing (code 253#9 []) ∧ 7 < (8#8).toNat ∧ ((7#8).toNat ≤ 7 ∧ 7 < (8#8).toNat) ∧
    (7#8).toNat = (7 : RegIdx).val := by decide
/-- For PUSH and CALL: a = 8; a = 7 with SP = 0; a = 7 with SP = 1. -/
theorem witness_push_call :
    (Memory.wf (codeSp 253#9 [] 0#8).mem = true ∧ Executing (codeSp 253#9 [] 0#8) ∧ readReg (codeSp 253#9 [] 0#8) 7 = 0#8) ∧
    (Memory.wf (codeSp 0#9 [] 1#8).mem = true ∧ Executing (codeSp 0#9 [] 1#8) ∧ readReg (codeSp 0#9 [] 1#8) 7 ≠ 0#8) ∧
    7 < (8#8).toNat ∧ (7#8).toNat = (7 : RegIdx).val := by decide
/-- For POP and RET: SP = 0xF4 and SP = 0xF3, operand bytes 8 and 7. -/
theorem witness_pop_ret :
    (Executing (codeSp 253#9 [] 0xF4#8) ∧ 0xF4 ≤ (readReg (codeSp 253#9 [] 0xF4#8) 7).toNat) ∧
    (Executing (codeSp 0#9 [] 0xF3#8) ∧ (readReg (codeSp 0#9 [] 0xF3#8) 7).toNat < 0xF4) ∧
    7 < (8#8).toNat ∧ (7#8).toNat = (7 : RegIdx).val := by decide
theorem witness_RegisterFaultExactlyWhenAnOperandIsAbove7 :
    Executing (code 253#9 []) ∧ WellFormed (.mul 7#8 8#8) = false ∧
    ∃ ix, exec (.mul 9#8 8#8) (code 253#9 []) =
      .next (FaultedWith (code 253#9 []) .outOfBoundsRegister (some (opcodeOf (.mul 9#8 8#8))) ix) :=
  ⟨by decide, by decide, _, rfl⟩
theorem witness_HltHaltsAndAdvances :
    Executing (code 253#9 [1#8]) ∧
    ((code 254#9 [1#8]).run = .running ∧ (code 254#9 [1#8]).pc.toNat = 254 ∧ memByte (code 254#9 [1#8]).mem 254 = 1#8) ∧
    ((code 255#9 [1#8]).run = .running ∧ (code 255#9 [1#8]).pc.toNat = 255 ∧ memByte (code 255#9 [1#8]).mem 255 = 1#8) ∧
    ∃ t, exec .hlt (code 253#9 [1#8]) = .next t ∧ t.run = .halted :=
  ⟨by decide, by decide, by decide, _, rfl, rfl⟩
theorem witness_frames :
    (∃ t, exec .hlt State.reset = .next t) ∧ (∃ t, exec (.ldi 7#8 1#8) State.reset = .next t) ∧
    (∃ t, exec (.prn 8#8) State.reset = .next t) ∧ (∃ t, exec (.add 0#8 7#8) State.reset = .next t) ∧
    (∃ t, exec (.mul 8#8 0#8) State.reset = .next t) ∧ (∃ t, exec (.push 7#8) State.reset = .next t) ∧
    (∃ t, exec (.call 0#8) State.reset = .next t) ∧ (∃ t, exec (.pop 7#8) (codeSp 0#9 [] 0xF3#8) = .next t) ∧
    (∃ t, exec .ret State.reset = .next t) :=
  ⟨⟨_, rfl⟩, ⟨_, rfl⟩, ⟨_, rfl⟩, ⟨_, rfl⟩, ⟨_, rfl⟩, ⟨_, rfl⟩, ⟨_, rfl⟩, ⟨_, rfl⟩, ⟨_, rfl⟩⟩
theorem witness_UnreadRegisterHasNoInfluence :
    (0 : RegIdx).val ≠ (7#8).toNat ∧ ((0 : RegIdx).val ≠ (8#8).toNat ∧ (0 : RegIdx) ≠ 7) := by decide
theorem witness_PushThenPopRestores :
    Memory.wf (codeSp 253#9 [] 0xF4#8).mem = true ∧ Executing (codeSp 253#9 [] 0xF4#8) ∧
    (7#8).toNat = (7 : RegIdx).val ∧ (0#8).toNat = (0 : RegIdx).val ∧
    readReg (codeSp 253#9 [] 0xF4#8) 7 ≠ 0#8 ∧ (readReg (codeSp 253#9 [] 0xF4#8) 7).toNat ≤ 0xF4 ∧
    readReg (codeSp 253#9 [] 1#8) 7 ≠ 0#8 := by decide
/-- A CALL at 0 through R0 = 8 to a RET at 8. -/
theorem witness_CallThenRetReturnsToCallPlus2 :
    let s := writeReg (code 0#9 [0x50#8, 0#8, 0#8, 0#8, 0#8, 0#8, 0#8, 0#8, 0x11#8]) 0 8#8
    Memory.wf s.mem = true ∧ Executing s ∧ memByte s.mem s.pc.toNat = 0x50#8 ∧ (readReg s 7).toNat ≤ 0xF4 ∧
    ∃ t, step s = .next t ∧ Executing t ∧ memByte t.mem t.pc.toNat = 0x11#8 :=
  ⟨by decide, by decide, by decide, by decide, _, rfl, by decide, by decide⟩
/-- CALL at 0 to 4; CALL at 4 to 8; RET at 8; RET at 6. -/
theorem witness_NestedCallsReturnInReverseOrder :
    let s := writeReg (writeReg (code 0#9 [0x50#8, 0#8, 0#8, 0#8, 0x50#8, 1#8, 0x11#8, 0#8, 0x11#8]) 0 4#8) 1 8#8
    Memory.wf s.mem = true ∧ (readReg s 7).toNat ≤ 0xF4 ∧ Executing s ∧ memByte s.mem s.pc.toNat = 0x50#8 ∧
    ∃ t1, step s = .next t1 ∧ Executing t1 ∧ memByte t1.mem t1.pc.toNat = 0x50#8 ∧
    ∃ t2, step t1 = .next t2 ∧ Executing t2 ∧ memByte t2.mem t2.pc.toNat = 0x11#8 ∧
    ∃ t3, step t2 = .next t3 ∧ Executing t3 ∧ memByte t3.mem t3.pc.toNat = 0x11#8 :=
  ⟨by decide, by decide, by decide, by decide, _, rfl, by decide, by decide, _, rfl, by decide, by decide, _, rfl,
    by decide, by decide⟩
theorem witness_ImageLoadFillsMemoryFromZero :
    ([] : List Byte).length ≤ 256 ∧ (List.replicate 256 (1#8 : Byte)).length ≤ 256 ∧
    256 < (List.replicate 257 (1#8 : Byte)).length := by decide +kernel
/-- The last part: a file of 257 lines. -/
theorem witness_BootEndsAtResetWithTheImageOrAtReset :
    (parseProgram "00000001".toList = .ok [1#8] ∧ ([1#8] : List Byte).length ≤ 256) ∧
    parseProgram "x".toList = .error .nonBinary ∧ boot none = (State.reset, some .fileUnreadable) ∧
    ∃ text img, parseProgram text = .ok img ∧ 256 < img.length :=
  ⟨⟨rfl, by decide⟩, rfl, rfl, (List.replicate 257 ['1', '\n']).flatten, List.replicate 257 1#8, by decide +kernel,
    by decide +kernel⟩
theorem witness_LoaderIgnoresBlankLinesAndComments :
    (∀ c ∈ [' ', '\t'], c.isWhitespace = true) ∧ '#' ∉ ['0', '1', ' '] := ⟨by simp, by decide⟩
theorem witness_ExitStatusByTheEndOfTheRun : LoadError.nonBinary ≠ .fileUnreadable ∧ State.reset.run = .running ∧
    ({ State.reset with run := .halted } : State).run = .halted ∧
    ({ State.reset with run := .faulted } : State).run = .faulted := by decide
theorem witness_DebugReadShowsTheState : (2 : Nat) < 3 ∧ 255 < (code 254#9 []).pc.toNat + 2 := by decide
theorem witness_StepRefinesThePseudocode :
    (code 256#9 []).Inv ∧ (∃ t, step (code 256#9 []) = .next t) ∧
    ({ State.reset with run := .halted } : State).Inv ∧ ∀ t, step { State.reset with run := .halted } ≠ .next t :=
  ⟨⟨by decide, by decide, by decide, fun _ h => by cases h⟩, ⟨_, rfl⟩,
    ⟨by decide, by decide, by decide, fun _ h => by cases h⟩, fun _ h => by cases h⟩

end Sys2Proof.Tests
end

section
/-! PROOFS, family 10_state.md: the output stream (R33, R37) and the frame of every instruction (R24, R33). The frames are
said once as lemmas about `exec i s = .next t` for any `i`, one per part of the state; each obligation reads off its own. -/

namespace Sys2Proof

/-- The operand bytes of a decoded instruction are the bytes after its opcode, in order (spec/30_encoding.md R60). -/
theorem operandsOf_prefix_of_decode {ir a b : Byte} {i : Instr} (h : decode ir a b = .ok i) :
    operandsOf i <+: [a, b] := by
  unfold decode at h
  repeat' (split at h; · cases h; simp [operandsOf])
  cases h

end Sys2Proof

namespace Sys2Proof.Machine

/-! ## The output stream -/

/-- A PRN that the fetch stages deliver stands at pc, with its operand byte after it, and the step executes it. -/
theorem prn_of_fetchDecode {s : State} {a : Byte} (h : fetchDecode s = .ok (.prn a)) :
    s.pc.toNat + 2 ≤ 255 ∧ memByte s.mem s.pc.toNat = 0x47#8 ∧ memByte s.mem (s.pc.toNat + 1) = a := by
  obtain ⟨hpc, hd⟩ := fetchDecode_ok_iff.mp h
  have hop : a = memByte s.mem (s.pc.toNat + 1) := by simpa [operandsOf] using operandsOf_prefix_of_decode hd
  exact ⟨by omega, (opcodeOf_of_decode hd).symm, hop.symm⟩

/-- Settles O28: a fault keeps the output, and of the instructions that complete only PRN writes it. -/
theorem onlyPrnExtendsTheOutput : Obligations.OnlyPrnExtendsTheOutput := by
  intro s t h
  obtain ⟨hrun, ⟨o, r, rfl, -⟩ | ⟨i, hi, hc⟩⟩ := step_inv h
  · exact .inl (takeFault_out s o r)
  · obtain hsame | ⟨a, ha, rfl, hout⟩ := hc.out
    · exact .inl hsame
    · obtain ⟨hpc, hop, harg⟩ := prn_of_fetchDecode hi
      exact .inr ⟨⟨a.toNat, ha⟩, ⟨hrun, hpc⟩, hop, congrArg BitVec.toNat harg, hout⟩

/-! ## The frame of an instruction, one lemma per part of the state -/

/-- A next state of `exec` is a fault taken from the state it began in, or a completion. -/
theorem exec_inv {i : Instr} {s t : State} (h : exec i s = .next t) :
    (∃ o r, t = takeFault s o r) ∨ Completes i s t := by
  obtain ⟨r, hx, -⟩ | ⟨t', hx, hc⟩ := exec_cases i s
  · rw [hx] at h
    cases h
    exact .inl ⟨_, r, rfl⟩
  · rw [hx] at h
    cases h
    exact .inr hc

/-- The registers an instruction may write (spec/10_state.md R24, the "writes" column). -/
def WritesReg : Instr → RegIdx → Prop
  | .hlt, _ => False
  | .ldi a _, q => q.val = a.toNat
  | .prn _, _ => False
  | .mul a _, q => q.val = a.toNat
  | .add a _, q => q.val = a.toNat
  | .push _, q => q = 7
  | .pop a, q => q.val = a.toNat ∨ q = 7
  | .call _, q => q = 7
  | .ret, q => q = 7

/-- The two instructions that store to memory, by their opcode bytes. -/
theorem opcodeOf_mem_push_call {i : Instr} :
    opcodeOf i ∈ [opPUSH, opCALL] ↔ (∃ a, i = .push a) ∨ ∃ a, i = .call a := by
  cases i <;> simp [opcodeOf, opHLT, opLDI, opPRN, opMUL, opADD, opPUSH, opPOP, opCALL, opRET]

section
variable {i : Instr} {s t : State} (h : exec i s = .next t)
include h

theorem readReg_of_exec {q : RegIdx} (hq : ¬ WritesReg i q) : readReg t q = readReg s q := by
  obtain ⟨o, r, rfl⟩ | hc := exec_inv h
  · exact readReg_takeFault s o r q
  · refine hc.regs q ?_
    cases i with
    | hlt | prn => trivial
    | pop => exact not_or.mp hq
    | ldi | mul | add | push | call | ret => exact hq

theorem mem_of_exec :
    t.mem = s.mem ∨ (opcodeOf i ∈ [opPUSH, opCALL] ∧ ∃ v, t.mem = memPut s.mem (readSp s - 1#8).toNat v) := by
  obtain ⟨o, r, rfl⟩ | hc := exec_inv h
  · exact .inl (takeFault_mem s o r)
  · exact hc.mem

theorem sameMemoryBut_of_exec : SameMemoryBut (readSp s - 1#8).toNat s t := by
  intro addr haddr
  obtain hm | ⟨-, v, hm⟩ := mem_of_exec h
  · rw [hm]
  · rw [hm, memByte_memPut_of_ne haddr]

theorem sameMemory_of_exec (hpush : ∀ a, i ≠ .push a) (hcall : ∀ a, i ≠ .call a) : SameMemory s t := by
  intro addr
  obtain hm | ⟨hop, -⟩ := mem_of_exec h
  · rw [hm]
  · obtain ⟨a, ha⟩ | ⟨a, ha⟩ := opcodeOf_mem_push_call.mp hop
    · exact absurd ha (hpush a)
    · exact absurd ha (hcall a)

theorem out_of_exec (hprn : ∀ a, i ≠ .prn a) : t.out = s.out := by
  obtain ⟨o, r, rfl⟩ | hc := exec_inv h
  · exact takeFault_out s o r
  · obtain hsame | ⟨a, -, ha, -⟩ := hc.out
    · exact hsame
    · exact absurd ha (hprn a)

theorem status_of_exec (hhlt : i ≠ .hlt) : SameStatus s t ∨ ∃ c o ix, t = FaultedWith s c o ix := by
  obtain ⟨o, r, rfl⟩ | hc := exec_inv h
  · exact .inr ⟨r.cause, o, r.index, takeFault_eq_faultedWith s o r⟩
  · exact .inl ⟨hc.run.trans (if_neg hhlt), hc.fault⟩

end

/-- HLT raises nothing, so it keeps the fault record. -/
theorem fault_of_exec_hlt {s t : State} (h : exec .hlt s = .next t) : t.fault = s.fault := by
  rw [exec_hlt] at h
  cases h
  rfl

/-! ## The frames the obligations state -/

/-- Settles O40: none of the five stores to memory, and each writes at most its destination register. -/
theorem frameOfHltLdiPrnAddMul : Obligations.FrameOfHltLdiPrnAddMul := by
  intro s t i h hi
  refine ⟨sameMemory_of_exec h ?_ ?_, fun q hq => readReg_of_exec h ?_, out_of_exec h, status_of_exec h, ?_⟩
  · rintro a rfl
    simp at hi
  · rintro a rfl
    simp at hi
  · obtain rfl | ⟨a, imm, rfl⟩ | ⟨a, rfl⟩ | ⟨a, b, rfl⟩ | ⟨a, b, rfl⟩ := hi
    · exact id
    · exact hq a imm (.inl rfl)
    · exact id
    · exact hq a b (.inr (.inl rfl))
    · exact hq a b (.inr (.inr rfl))
  · rintro rfl
    exact fault_of_exec_hlt h

/-- Settles O41: PUSH and CALL write no register but SP and no cell but the one below it. -/
theorem frameOfPushAndCall : Obligations.FrameOfPushAndCall := by
  rintro s t a (h | h) <;>
  exact ⟨fun q hq => readReg_of_exec h fun e => hq (List.mem_singleton.mpr e), sameMemoryBut_of_exec h,
    out_of_exec h (by simp), status_of_exec h (by simp)⟩

/-- Settles O42: POP and RET do not store, and write no register but SP and POP's destination. -/
theorem frameOfPopAndRet : Obligations.FrameOfPopAndRet := by
  rintro s t i h (rfl | ⟨a, rfl⟩)
  · exact ⟨sameMemory_of_exec h (by simp) (by simp), fun q hsp _ => readReg_of_exec h hsp,
      out_of_exec h (by simp), status_of_exec h (by simp)⟩
  · exact ⟨sameMemory_of_exec h (by simp) (by simp),
      fun q hsp hdst => readReg_of_exec h (not_or.mpr ⟨hdst a rfl, hsp⟩),
      out_of_exec h (by simp), status_of_exec h (by simp)⟩

end Sys2Proof.Machine
end

section
/-! PROOFS, family 20_memory.md: the bounded accesses (R42, R43) and the reads after a list of writes (R49). -/

namespace Sys2Proof.Machine

/-- Above the address space a write raises what a read there raises. -/
theorem memWrite_of_gt {m : List Host.Cell} {a : Nat} (h : 255 < a) (v : Byte) :
    memWrite m a v = .error ⟨.outOfBoundsMemory, some (BitVec.ofNat 9 a)⟩ := by
  rw [memWrite, if_pos h]

/-- Settles O24: above 255 both accesses raise, and inside a write is `memPut`, which keeps the canonical form. -/
theorem accessesAreBoundsChecked : Obligations.AccessesAreBoundsChecked := by
  intro m addr v hm
  constructor
  · intro habove
    exact ⟨memRead_of_gt habove, memWrite_of_gt habove v⟩
  · intro hinside
    exact ⟨memRead_of_le hinside, memPut m addr v, memWrite_of_le hinside v, wf_memPut hm hinside v,
      fun b => memByte_memPut hm addr b v⟩

/-- Any list of writes inside the address space keeps the canonical form. -/
theorem wf_foldl_memPut {m : List Host.Cell} (hm : Memory.wf m = true) {writes : List (Nat × Byte)}
    (hw : ∀ w ∈ writes, w.1 ≤ 255) :
    Memory.wf (writes.foldl (fun m w => memPut m w.1 w.2) m) = true :=
  List.foldlRecOn (motive := fun m => Memory.wf m = true) writes _ hm
    fun _ hm' w hmem => wf_memPut hm' (hw w hmem) w.2

/-- Settles O25, by induction on the writes from the latest one back: that one answers the read if it is to the
address read, and otherwise the read is one after the writes before it. -/
theorem readReturnsTheLatestWrite : Obligations.ReadReturnsTheLatestWrite := by
  intro m writes addr hm hw
  induction writes using List.reverseRecOn with
  | nil => rfl
  | append_singleton earlier w ih =>
    have hearlier : ∀ w' ∈ earlier, w'.1 ≤ 255 := fun w' h => hw w' (List.mem_append_left _ h)
    rw [List.foldl_concat, memByte_memPut (wf_foldl_memPut hm hearlier), List.reverse_concat]
    by_cases hlatest : addr = w.1
    · simp [hlatest]
    · rw [if_neg hlatest, ih hearlier, List.find?_cons_of_neg (by simpa using Ne.symm hlatest)]

end Sys2Proof.Machine
end

section
/-! PROOFS, family 30_encoding.md: the length of an instruction (R60), the round trips between an instruction and its bytes
(R61, R72), and reading from a byte stream (R70). -/

namespace Sys2Proof

/-! ## The length of an instruction -/

/-- The masked shift of R60 is a division: the two highest bits of a byte. -/
theorem operandCount_eq_toNat_div (ir : Byte) : operandCount ir = ir.toNat / 64 := by
  have hmask : operandCount ir = (ir.toNat >>> 6) &&& (2 ^ 2 - 1) := by simp [operandCount]
  rw [hmask, Nat.and_two_pow_sub_one_eq_mod, Nat.shiftRight_eq_div_pow]
  have hbyte : ir.toNat < 2 ^ 8 := ir.isLt
  omega

theorem instrSize_eq_toNat_div (ir : Byte) : instrSize ir = ir.toNat / 64 + 1 :=
  congrArg (· + 1) (operandCount_eq_toNat_div ir)

open Laws.EncodedLength in
/-- R67, from the entry of each instruction. -/
theorem length_encode (i : Instr) : (encode i).length = instrSize (opcodeOf i) := by
  cases i with
  | hlt => exact hlt.2
  | ldi a imm => exact (ldi a imm).2
  | prn a => exact (prn a).2
  | mul a b => exact (mul a b).2
  | add a b => exact (add a b).2
  | push a => exact (push a).2
  | pop a => exact (pop a).2
  | call a => exact (call a).2
  | ret => exact ret.2

theorem length_operandsOf (i : Instr) : (operandsOf i).length = operandCount (opcodeOf i) :=
  Nat.succ.inj (length_encode i)

/-- None of the nine opcode bytes has both highest bits set (R65). -/
theorem operandCount_opcodeOf_le (i : Instr) : operandCount (opcodeOf i) ≤ 2 := by
  have hnine : ∀ ir ∈ opcodes, operandCount ir ≤ 2 := by decide
  exact hnine _ (opcodeOf_mem i)

/-- Settles O5: the operand bytes number what the opcode's two highest bits say, and no opcode says 3. -/
theorem lengthIsTwoHighestOpcodeBitsPlusOne : Obligations.LengthIsTwoHighestOpcodeBitsPlusOne := by
  intro i
  have hle := operandCount_opcodeOf_le i
  have hlen : (encode i).length = operandCount (opcodeOf i) + 1 := length_encode i
  exact ⟨rfl, (length_encode i).trans (instrSize_eq_toNat_div _), by omega, by omega⟩

/-! ## The round trips -/

/-- The opcode byte with the two bytes after it, of a stream that begins with the instruction's operand bytes, decodes to the
instruction. The default 0 is a byte past the end, which only an instruction that ignores it can meet. -/
theorem decode_opcodeOf_operandsOf (i : Instr) (rest : List Byte) :
    decode (opcodeOf i) ((operandsOf i ++ rest).getD 0 0#8) ((operandsOf i ++ rest).getD 1 0#8) = .ok i := by
  cases i <;> rfl

/-- Settles O2: the three bytes are the opcode byte, the operand bytes, and a rest that decoding ignores. -/
theorem encodedInstructionDecodesToItself : Obligations.EncodedInstructionDecodesToItself := by
  intro i ir a b h
  obtain ⟨hop, rest, hrest⟩ : opcodeOf i = ir ∧ operandsOf i <+: [a, b] := List.cons_prefix_cons.mp h
  have hdec := decode_opcodeOf_operandsOf i rest
  rw [hop, hrest] at hdec
  exact hdec

/-- Settles O3: the opcode and operand bytes of what decodes begin the three bytes, and the opcode byte gives their number. -/
theorem decodedInstructionEncodesBack : Obligations.DecodedInstructionEncodesBack := by
  intro ir a b i h
  have hop : opcodeOf i = ir := opcodeOf_of_decode h
  have hprefix : encode i <+: [ir, a, b] := List.cons_prefix_cons.mpr ⟨hop, operandsOf_prefix_of_decode h⟩
  have hlen : (encode i).length = ir.toNat / 64 + 1 := by rw [length_encode, hop, instrSize_eq_toNat_div]
  rw [← hlen]
  exact List.prefix_iff_eq_take.mp hprefix

/-- Settles O1: the decoder evaluated on the nine words. -/
theorem opcodeMapWordsDecode : Obligations.OpcodeMapWordsDecode :=
  ⟨rfl, rfl, rfl, rfl, rfl, rfl, rfl, rfl, rfl⟩

/-! ## Reading from a byte stream -/

/-- Where the bytes at the front decode, the stream's length against the opcode's decides. -/
theorem decodeStream_cons_of_decode {ir : Byte} {rest : List Byte} {i : Instr}
    (h : decode ir (rest.getD 0 0#8) (rest.getD 1 0#8) = .ok i) :
    decodeStream (ir :: rest) =
      if rest.length < operandCount ir then .error .missingByte else .ok (i, rest.drop (operandCount ir)) := by
  rw [decodeStream, h]

theorem decodeStream_encode_append (i : Instr) (rest : List Byte) :
    decodeStream (encode i ++ rest) = .ok (i, rest) := by
  rw [encode, List.cons_append, decodeStream_cons_of_decode (decode_opcodeOf_operandsOf i rest),
    if_neg (by simp [length_operandsOf]), ← length_operandsOf, List.drop_left]

theorem decodeStream_take_encode {i : Instr} {n : Nat} (h : n < (encode i).length) :
    decodeStream ((encode i).take n) = .error .missingByte := by
  cases n with
  | zero => rfl
  | succ k =>
    obtain ⟨j, hj⟩ := decode_of_mem (opcodeOf_mem i) (((operandsOf i).take k).getD 0 0#8)
      (((operandsOf i).take k).getD 1 0#8)
    have hshort : ((operandsOf i).take k).length < operandCount (opcodeOf i) := by
      rw [length_encode, instrSize] at h
      rw [List.length_take]
      omega
    rw [encode, List.take_succ_cons, decodeStream_cons_of_decode hj, if_pos hshort]

/-- Settles O6: a whole instruction is read off the front of its stream, and each proper beginning lacks a byte. -/
theorem streamDecodingTakesOneInstruction : Obligations.StreamDecodingTakesOneInstruction :=
  ⟨decodeStream_encode_append, fun _ _ h => decodeStream_take_encode h⟩

end Sys2Proof
end

section
/-! PROOFS, family 40_execution_cycle.md: what the step runs (R82, R84), the faults of the operand read (R83), the moves of
the engine state (R80, R81), and the next pc (R86). -/

namespace Sys2Proof.Machine

section
variable {s t : State}

/-! ## The step, one equation per engine state and per answer of the fetch stages -/

theorem step_of_halted (h : s.run = .halted) : step s = .fault .noStepHalted := by
  rw [step, h]

theorem step_of_faulted (h : s.run = .faulted) : step s = .fault .noStepFaulted := by
  rw [step, h]

theorem step_of_fetchDecode_ok {i : Instr} (hrun : s.run = .running) (hi : fetchDecode s = .ok i) :
    step s = exec i s := by
  rw [step_of_running hrun, hi]

theorem step_of_fetchDecode_error {o : Option Byte} {r : Raise} (hrun : s.run = .running)
    (he : fetchDecode s = .error (o, r)) : step s = .next (FaultedWith s r.cause o r.index) := by
  rw [← takeFault_eq_faultedWith, step_of_running hrun, he]

/-! ## The three instructions that do not simply advance in Running, as the fetch stages deliver them -/

theorem fetchDecode_eq_hlt_iff :
    fetchDecode s = .ok .hlt ↔ s.pc.toNat + 2 ≤ 255 ∧ memByte s.mem s.pc.toNat = 0x01#8 := by
  constructor
  · intro hi
    have hpc := (fetchDecode_ok_iff.mp hi).1
    exact ⟨by omega, (opcodeOf_of_fetchDecode hi).symm⟩
  · rintro ⟨hpc, hop⟩
    exact fetchDecode_ok_iff.mpr ⟨by omega, by rw [hop]; rfl⟩

theorem fetchDecode_call (hpc : s.pc.toNat ≤ 253) (hop : memByte s.mem s.pc.toNat = 0x50#8) :
    fetchDecode s = .ok (.call (memByte s.mem (s.pc.toNat + 1))) :=
  fetchDecode_ok_iff.mpr ⟨hpc, by rw [hop]; rfl⟩

theorem fetchDecode_ret (hpc : s.pc.toNat ≤ 253) (hop : memByte s.mem s.pc.toNat = 0x11#8) :
    fetchDecode s = .ok .ret :=
  fetchDecode_ok_iff.mpr ⟨hpc, by rw [hop]; rfl⟩

/-! ## The engine state after a step -/

theorem run_eq_halted_iff_of_step (h : step s = .next t) : t.run = .halted ↔ fetchDecode s = .ok .hlt := by
  obtain ⟨hrun, hcases⟩ := step_inv h
  constructor
  · intro ht
    obtain ⟨o, r, rfl, -⟩ | ⟨i, hi, hc⟩ := hcases
    · cases ht
    · by_cases hhlt : i = .hlt
      · rw [← hhlt, hi]
      · rw [hc.run, if_neg hhlt, hrun] at ht
        cases ht
  · intro hi
    rw [step_of_fetchDecode_ok hrun hi, exec_hlt] at h
    cases h
    rfl

theorem run_eq_faulted_iff_of_step (h : step s = .next t) :
    t.run = .faulted ↔ ∃ c o ix, t = FaultedWith s c o ix := by
  constructor
  · intro ht
    obtain ⟨hrun, ⟨o, r, rfl, -⟩ | ⟨i, -, hc⟩⟩ := step_inv h
    · exact ⟨r.cause, o, r.index, takeFault_eq_faultedWith s o r⟩
    · rw [hc.run, hrun] at ht
      split at ht <;> cases ht
  · rintro ⟨c, o, ix, rfl⟩
    rfl

/-- A step that does not end in Faulted completes the instruction that the fetch stages deliver. -/
theorem completes_of_step (h : step s = .next t) (ht : t.run ≠ .faulted) :
    ∃ i, fetchDecode s = .ok i ∧ Completes i s t := by
  obtain ⟨-, ⟨o, r, rfl, -⟩ | hcompletes⟩ := step_inv h
  · exact absurd (takeFault_run s o r) ht
  · exact hcompletes

/-! ## The pc after an instruction that completes -/

theorem Completes.pc_of_opcode_ne {i : Instr} (hc : Completes i s t) (hcall : opcodeOf i ≠ opCALL)
    (hret : opcodeOf i ≠ opRET) : t.pc = s.pc + BitVec.ofNat 9 (instrSize (opcodeOf i)) := by
  cases i with
  | call => exact absurd rfl hcall
  | ret => exact absurd rfl hret
  | hlt | ldi | prn | mul | add | push | pop => exact hc.pc

theorem Completes.pc_call {a : Byte} (hc : Completes (.call a) s t) {ra : RegIdx} (ha : a.toNat = ra.val) :
    t.pc = (readReg t ra).setWidth 9 := by
  obtain ⟨hvalid, hpc⟩ := hc.pc
  have hra : ⟨a.toNat, hvalid⟩ = ra := Fin.ext ha
  rw [hpc, hra]

theorem Completes.pc_ret (hc : Completes .ret s t) : t.pc = (memByte s.mem (readReg s 7).toNat).setWidth 9 :=
  hc.pc

end

/-- Where all three bytes exist, the 9-bit sum of the advance is the sum of the naturals: no instruction is long enough to
wrap it (spec/10_state.md R28). -/
theorem toNat_add_instrSize {p : PcWord} (hp : p.toNat ≤ 253) (ir : Byte) :
    (p + BitVec.ofNat 9 (instrSize ir)).toNat = p.toNat + ir.toNat / 64 + 1 := by
  have hbyte := byte_toNat_le ir
  rw [instrSize_eq_toNat_div, BitVec.toNat_add, BitVec.toNat_ofNat]
  omega

/-- A byte put into the pc keeps its value. -/
theorem toNat_byte_setWidth_pc (b : Byte) : (b.setWidth 9).toNat = b.toNat :=
  BitVec.toNat_setWidth_of_le (by decide)

/-! ## An encoding in memory, as the three bytes the fetch stages read -/

/-- Bytes that stand in memory from an address on begin the three bytes there, if they are no more than three. -/
theorem prefix_of_memByte {m : List Host.Cell} {p : Nat} {bs : List Byte} (hlen : bs.length ≤ 3)
    (h : ∀ k (hk : k < bs.length), memByte m (p + k) = bs[k]) :
    bs <+: [memByte m p, memByte m (p + 1), memByte m (p + 2)] := by
  have hread : [memByte m p, memByte m (p + 1), memByte m (p + 2)] =
      (List.range 3).map fun k => memByte m (p + k) := rfl
  rw [hread, List.prefix_iff_getElem]
  refine ⟨by simpa using hlen, fun k hk => ?_⟩
  simp [h k hk]

/-! ## The obligations -/

/-- Settles O7: with all three bytes in memory the fetch stages deliver what the bytes decode to. -/
theorem stepRunsDecodedInstruction : Obligations.StepRunsDecodedInstruction := by
  rintro s i ⟨hrun, hpc⟩ hdec
  exact step_of_fetchDecode_ok hrun (fetchDecode_ok_iff.mpr ⟨by omega, hdec⟩)

/-- Settles O8: the encoding begins the three bytes at pc, which therefore decode to the instruction. -/
theorem stepRunsInstructionEncodedAtPc : Obligations.StepRunsInstructionEncodedAtPc := by
  intro s i hs hbytes
  obtain ⟨-, -, -, hlen⟩ := lengthIsTwoHighestOpcodeBitsPlusOne i
  exact stepRunsDecodedInstruction s i hs
    (encodedInstructionDecodesToItself i _ _ _ (prefix_of_memByte hlen hbytes))

/-- Settles O10: the fetch raises above 255, and at 254 and 255 the first operand read to leave memory raises at 256. -/
theorem readsAboveMemoryFault : Obligations.ReadsAboveMemoryFault := by
  intro s hrun
  constructor
  · intro habove
    exact step_of_fetchDecode_error hrun (fetchDecode_of_pc_gt habove)
  · intro htop
    exact step_of_fetchDecode_error hrun (fetchDecode_of_pc_top htop)

/-- Settles O13: the step answers by the engine state, and in Running it is total. -/
theorem stepExistsExactlyWhenRunning : Obligations.StepExistsExactlyWhenRunning :=
  ⟨fun _ => ⟨fun ⟨_, h⟩ => (step_cases h).1, step_total⟩, fun _ => step_of_halted, fun _ => step_of_faulted⟩

/-- Settles O14: a step to Halted is a HLT that the fetch stages deliver, a step to Faulted is a fault commit, and the
terminal states have no step. -/
theorem runStateMovesByTable : Obligations.RunStateMovesByTable := by
  constructor
  · intro s t h
    exact ⟨(step_cases h).1, (run_eq_halted_iff_of_step h).trans fetchDecode_eq_hlt_iff, run_eq_faulted_iff_of_step h⟩
  · rintro s t (hterminal | hterminal) h
    · rw [step_of_halted hterminal] at h
      cases h
    · rw [step_of_faulted hterminal] at h
      cases h

/-- Settles O18: the completed instruction is the one whose opcode byte stands at pc; only CALL and RET set the pc
themselves. -/
theorem nextPcByOpcode : Obligations.NextPcByOpcode := by
  rintro s t ⟨-, hbytes⟩ h ht
  obtain ⟨i, hi, hc⟩ := completes_of_step h ht
  have hpc : s.pc.toNat ≤ 253 := by omega
  refine ⟨fun hcall hret => ?_, fun hcall ra hra => ?_, fun hret => ?_⟩
  · rw [← opcodeOf_of_fetchDecode hi] at hcall hret ⊢
    rw [hc.pc_of_opcode_ne hcall hret, toNat_add_instrSize hpc]
  · obtain rfl : i = _ := Except.ok.inj (hi.symm.trans (fetchDecode_call hpc hcall))
    rw [hc.pc_call hra, toNat_byte_setWidth_pc]
  · obtain rfl : i = _ := Except.ok.inj (hi.symm.trans (fetchDecode_ret hpc hret))
    rw [hc.pc_ret, toNat_byte_setWidth_pc]

end Sys2Proof.Machine
end

section
/-! PROOFS, family 41_register_and_output.md: the immediate load (R100). -/

namespace Sys2Proof.Machine

/-- A register write changes its own register alone. -/
theorem sameRegsBut_writeReg (s : State) (r : RegIdx) (v : Byte) : SameRegsBut [r] s (writeReg s r v) :=
  fun _ hq => readReg_writeReg_of_ne s (List.ne_of_not_mem_cons hq) v

/-- `exec_ldi` with the operand byte given by the register it names. -/
theorem exec_ldi_of_toNat_eq {a : Byte} {ra : RegIdx} (ha : a.toNat = ra.val) (imm : Byte) (s : State) :
    exec (.ldi a imm) s = .next (advance s.pc opLDI (writeReg s ra imm)) := by
  have hvalid : a.toNat < 8 := ha ▸ ra.isLt
  have hra : ⟨a.toNat, hvalid⟩ = ra := Fin.ext ha
  rw [exec_ldi hvalid, hra]

/-- Settles O30: the register operand decides between the fault and the write, and only the advance follows the write. -/
theorem ldiLoadsTheImmediate : Obligations.LdiLoadsTheImmediate := by
  constructor
  · intro a imm
    exact ⟨rfl, decode_opcodeOf_operandsOf (.ldi a imm) []⟩
  · rintro a imm s ⟨-, hbytes⟩
    constructor
    · intro hbad
      rw [exec_ldi_badReg hbad, takeFault_eq_faultedWith]
      rfl
    · intro ra ha
      have hpc : (advance s.pc opLDI (writeReg s ra imm)).pc.toNat = s.pc.toNat + 3 :=
        toNat_add_instrSize (by omega) opLDI
      exact ⟨_, exec_ldi_of_toNat_eq ha imm s, readReg_writeReg_same s ra imm, sameRegsBut_writeReg s ra imm, hpc,
        fun _ => rfl, rfl, rfl, rfl⟩

end Sys2Proof.Machine
end

section
/-! PROOFS, family 42_alu.md: ADD (R111) and MUL (R112). What the two share is said once, for either operation of the ALU. -/

namespace Sys2Proof.Machine

/-! ## The ALU on natural numbers -/

@[simp] theorem toNat_alu_add (va vb : Byte) : (alu .add va vb).toNat = (va.toNat + vb.toNat) % 256 :=
  BitVec.toNat_ofNat _ _

@[simp] theorem toNat_alu_mul (va vb : Byte) : (alu .mul va vb).toNat = va.toNat * vb.toNat % 256 :=
  BitVec.toNat_ofNat _ _

/-! ## The two instructions as one, by the operation they ask for -/

/-- The instruction that asks the ALU for an operation. -/
def aluInstr : AluOp → Byte → Byte → Instr
  | .add => .add
  | .mul => .mul

section
variable {a b : Byte} (op : AluOp) (s : State)

/-- Operand a is checked first. -/
theorem exec_aluInstr_badRegA (h : 7 < a.toNat) :
    exec (aluInstr op a b) s =
      .next (FaultedWith s .outOfBoundsRegister (some (opcodeOf (aluInstr op a b))) (some (a.setWidth 9))) := by
  cases op with
  | add => exact exec_add_badRegA h
  | mul => exact exec_mul_badRegA h

theorem exec_aluInstr_badRegB (h : a.toNat ≤ 7) (hb : 7 < b.toNat) :
    exec (aluInstr op a b) s =
      .next (FaultedWith s .outOfBoundsRegister (some (opcodeOf (aluInstr op a b))) (some (b.setWidth 9))) := by
  have hvalid : a.toNat < 8 := Nat.lt_succ_of_le h
  cases op with
  | add => exact exec_add_badRegB hvalid hb
  | mul => exact exec_mul_badRegB hvalid hb

variable {ra rb : RegIdx} (ha : a.toNat = ra.val) (hb : b.toNat = rb.val)
include ha hb

/-- `exec_add` and `exec_mul` with the operand bytes given by the registers they name. -/
theorem exec_aluInstr_of_toNat_eq :
    exec (aluInstr op a b) s = .next (advance s.pc (opcodeOf (aluInstr op a b))
      (writeReg s ra (alu op (readReg s ra) (readReg s rb)))) := by
  have hvalidA : a.toNat < 8 := ha ▸ ra.isLt
  have hvalidB : b.toNat < 8 := hb ▸ rb.isLt
  obtain rfl : ⟨a.toNat, hvalidA⟩ = ra := Fin.ext ha
  obtain rfl : ⟨b.toNat, hvalidB⟩ = rb := Fin.ext hb
  cases op with
  | add => exact exec_add hvalidA hvalidB
  | mul => exact exec_mul hvalidA hvalidB

/-- Where all three bytes exist: the result, the advance by 3, and the frame. -/
theorem exec_aluInstr_writes (hpc : s.pc.toNat + 2 ≤ 255) :
    ∃ t, exec (aluInstr op a b) s = .next t ∧ readReg t ra = alu op (readReg s ra) (readReg s rb) ∧
      SameRegsBut [ra] s t ∧ t.pc.toNat = s.pc.toNat + 3 ∧ SameMemory s t ∧ t.out = s.out ∧ SameStatus s t := by
  have hfits : s.pc.toNat ≤ 253 := by omega
  have hadvance : (s.pc + BitVec.ofNat 9 (instrSize (opcodeOf (aluInstr op a b)))).toNat = s.pc.toNat + 3 := by
    cases op with
    | add => exact toNat_add_instrSize hfits opADD
    | mul => exact toNat_add_instrSize hfits opMUL
  exact ⟨_, exec_aluInstr_of_toNat_eq op s ha hb, readReg_writeReg_same s ra _, sameRegsBut_writeReg s ra _, hadvance,
    fun _ => rfl, rfl, rfl, rfl⟩

end

/-! ## The obligations -/

/-- Settles O32: the operand bytes decide between the two faults and the write, and the ALU's sum is what is written. -/
theorem addWritesTheSumModulo256 : Obligations.AddWritesTheSumModulo256 := by
  constructor
  · intro a b
    exact ⟨rfl, decode_opcodeOf_operandsOf (.add a b) []⟩
  · rintro a b s ⟨-, hpc⟩
    refine ⟨exec_aluInstr_badRegA .add s, exec_aluInstr_badRegB .add s, fun ra rb ha hb => ?_⟩
    obtain ⟨t, ht, hsum, hframe⟩ := exec_aluInstr_writes .add s ha hb hpc
    exact ⟨t, ht, by rw [hsum, toNat_alu_add], hframe⟩

/-- Settles O33: as for ADD, with the ALU's product. -/
theorem mulWritesTheProductModulo256 : Obligations.MulWritesTheProductModulo256 := by
  constructor
  · intro a b
    exact ⟨rfl, decode_opcodeOf_operandsOf (.mul a b) []⟩
  · rintro a b s ⟨-, hpc⟩
    refine ⟨exec_aluInstr_badRegA .mul s, exec_aluInstr_badRegB .mul s, fun ra rb ha hb => ?_⟩
    obtain ⟨t, ht, hproduct, hframe⟩ := exec_aluInstr_writes .mul s ha hb hpc
    exact ⟨t, ht, by rw [hproduct, toNat_alu_mul], hframe⟩

end Sys2Proof.Machine
end

section
/-! PROOFS, family 44_control_transfer.md: HLT (R130) and RET (R132). -/

namespace Sys2Proof.Machine

/-! ## HLT -/

/-- An instruction that takes a running machine to Halted can only be HLT: every other one keeps the engine state or
faults. -/
theorem eq_hlt_of_exec_halts {i : Instr} {s t : State} (hrun : s.run = .running) (h : exec i s = .next t)
    (ht : t.run = .halted) : i = .hlt := by
  by_contra hne
  obtain ⟨hsame, -⟩ | ⟨c, o, ix, rfl⟩ := status_of_exec h hne
  · rw [hsame, hrun] at ht
    cases ht
  · cases ht

/-- Settles O36: HLT raises nothing of its own, so only the operand read at 254 and 255 keeps it from halting. -/
theorem hltHaltsAndAdvances : Obligations.HltHaltsAndAdvances := by
  refine ⟨fun a b => ⟨rfl, decode_opcodeOf_operandsOf .hlt [a, b]⟩, ?_, ?_, ?_⟩
  · rintro s ⟨-, hbytes⟩
    have hpc : (s.pc + 1#9).toNat = s.pc.toNat + 1 := toNat_add_instrSize (by omega) opHLT
    refine ⟨_, exec_hlt, rfl, hpc, fun _ _ => rfl, fun _ => rfl, rfl, rfl, fun u hu => ?_⟩
    rw [step_of_halted rfl] at hu
    cases hu
  · intro s hrun htop hop
    rw [← hop]
    exact (readsAboveMemoryFault s hrun).2 htop
  · rintro i s t ⟨hrun, -⟩ h ht
    exact eq_hlt_of_exec_halts hrun h ht

/-! ## RET -/

/-- Settles O38: the bound of the pop decides between the fault and the pop, which writes the pc and SP alone. -/
theorem retPopsIntoThePc : Obligations.RetPopsIntoThePc := by
  refine ⟨fun a b => ⟨rfl, decode_opcodeOf_operandsOf .ret [a, b]⟩, fun s _ => ⟨exec_ret_underflow, fun hsp => ?_⟩⟩
  have hrise : (readReg s 7 + 1#8).toNat = (readReg s 7).toNat + 1 := by bv_omega
  refine ⟨_, exec_ret hsp, toNat_byte_setWidth_pc _, ?_, sameRegsBut_writeReg (setPc s _) 7 _, fun _ => rfl, rfl,
    rfl, rfl⟩
  rw [← readSp_eq, readSp_writeSp]
  exact hrise

end Sys2Proof.Machine
end

section
/-! PROOFS, family 60_exceptions.md: the fault record by its cause (R140 to R146) and the output text (R158). Every fault is
a fault commit of something `StepRaises` lists; what a record says is proved once per origin, the fetch stages or the
decoded instruction. -/

namespace Sys2Proof.Machine

/-! ## The register operands of a decoded instruction -/

/-- The register operand bytes of a decoded instruction, by its opcode byte: none, the byte after it, or both bytes after it
(spec/30_encoding.md R61, R65). -/
theorem regOperandsOf_of_decode {ir a b : Byte} {i : Instr} (h : decode ir a b = .ok i) :
    regOperandsOf i = [] ∨
    (ir ∈ [opLDI, opPRN, opPUSH, opPOP, opCALL] ∧ regOperandsOf i = [a]) ∨
    (ir ∈ [opADD, opMUL] ∧ regOperandsOf i = [a, b]) := by
  have hargs := operandsOf_prefix_of_decode h
  obtain rfl := opcodeOf_of_decode h
  cases i with
  | hlt | ret => exact .inl rfl
  | ldi | prn | push | pop | call =>
    refine .inr (.inl ⟨by simp [opcodeOf], ?_⟩)
    simp [operandsOf] at hargs
    simp [regOperandsOf, hargs]
  | mul | add =>
    refine .inr (.inr ⟨by simp [opcodeOf], ?_⟩)
    simp [operandsOf] at hargs
    simp [regOperandsOf, hargs]

/-- The first register operand byte above 7 is the first byte after the opcode, or for ADD and MUL the second. -/
theorem firstBadRegOperand_of_decode {ir a b c : Byte} {i : Instr} (h : decode ir a b = .ok i)
    (hc : (regOperandsOf i).find? (fun a => 7 < a.toNat) = some c) :
    (ir ∈ [opLDI, opPRN, opADD, opMUL, opPUSH, opPOP, opCALL] ∧ 7 < a.toNat ∧ c = a) ∨
    (ir ∈ [opADD, opMUL] ∧ a.toNat ≤ 7 ∧ 7 < b.toNat ∧ c = b) := by
  obtain hregs | ⟨hir, hregs⟩ | ⟨hir, hregs⟩ := regOperandsOf_of_decode h <;> rw [hregs] at hc
  · cases hc
  · obtain ⟨ha, rfl⟩ : 7 < a.toNat ∧ a = c := by simpa using hc
    exact .inl ⟨by grind, ha, rfl⟩
  · by_cases ha : 7 < a.toNat
    · obtain rfl : a = c := by simpa [ha] using hc
      exact .inl ⟨by grind, ha, rfl⟩
    · obtain ⟨hb, rfl⟩ : 7 < b.toNat ∧ b = c := by simpa [ha] using hc
      exact .inr ⟨hir, by omega, hb, rfl⟩

/-! ## The raise of a step -/

section
variable {s t : State} {o : Option Byte} {r : Raise}

theorem fetchDecode_of_notMem (hpc : s.pc.toNat ≤ 253) (hop : memByte s.mem s.pc.toNat ∉ opcodes) :
    fetchDecode s = .error (some (memByte s.mem s.pc.toNat), ⟨.decodeError, none⟩) := by
  rw [fetchDecode_of_pc_le hpc, decode_of_notMem hop]

/-- A step that ends in Faulted has taken a fault that the step can raise. -/
theorem takeFault_of_step (h : step s = .next t) (ht : t.run = .faulted) :
    ∃ o r, t = takeFault s o r ∧ StepRaises s o r := by
  obtain ⟨hrun, hraise | ⟨i, -, hc⟩⟩ := step_inv h
  · exact hraise
  · rw [hc.run, hrun] at ht
    split at ht <;> cases ht

/-! ## What the record says -/

/-- A fault of the fetch stages: the pc decides which; that it is at most 256 makes the first address above memory 256
(spec/60_exceptions.md R141, R142). -/
theorem describes_of_fetchDecode_error (hpc : s.pc.toNat ≤ 256) (h : fetchDecode s = .error (o, r)) :
    FaultRecord.Describes ⟨r.cause, s.pc, o, r.index⟩ s := by
  obtain ⟨habove, he⟩ | ⟨htop, he⟩ | ⟨hle, hop, he⟩ := fetchDecode_error_cases h
  · have hpc256 : s.pc = 256#9 := by bv_omega
    cases he
    exact ⟨rfl, (if_pos habove).symm, by omega, hpc, congrArg some hpc256⟩
  · cases he
    exact ⟨rfl, (if_neg (by omega)).symm, by omega, hpc, rfl⟩
  · cases he
    exact ⟨rfl, (if_neg (by omega)).symm, hle, hop, rfl⟩

/-- A fault of the decoded instruction: a register operand, or a bound of the stack (spec/60_exceptions.md R143 to R145). -/
theorem describes_of_raises {i : Instr} (hi : fetchDecode s = .ok i) (h : Raises i s r) :
    FaultRecord.Describes ⟨r.cause, s.pc, some (opcodeOf i), r.index⟩ s := by
  obtain ⟨hpc, hdec⟩ := fetchDecode_ok_iff.mp hi
  have hop := opcodeOf_of_fetchDecode hi
  refine ⟨rfl, by rw [if_neg (by omega), hop], ?_⟩
  obtain ⟨c, hc, rfl⟩ | ⟨hir, hsp, rfl⟩ | ⟨hir, hsp, rfl⟩ := h
  · refine ⟨hpc, ?_⟩
    obtain ⟨hir, ha, rfl⟩ | ⟨hir, ha, hb, rfl⟩ := firstBadRegOperand_of_decode hdec hc
    · exact .inl ⟨hir, ha, rfl⟩
    · exact .inr ⟨hir, ha, hb, rfl⟩
  · rw [hop] at hir
    rw [readSp_eq] at hsp
    exact ⟨hpc, hir, hsp, by rw [hsp]; rfl⟩
  · rw [hop] at hir
    exact ⟨hpc, hir, hsp, rfl⟩

theorem StepRaises.cause_ne_aluError (h : StepRaises s o r) : r.cause ≠ .aluError := by
  obtain he | ⟨i, -, -, ⟨c, -, rfl⟩ | ⟨-, -, rfl⟩ | ⟨-, -, rfl⟩⟩ := h
  · obtain ⟨-, he⟩ | ⟨-, he⟩ | ⟨-, -, he⟩ := fetchDecode_error_cases he <;> (cases he; nofun)
  all_goals nofun

end

/-! ## The obligations about faults -/

/-- Settles O11: with all three bytes in memory the fetch stages get as far as the decoder, which rejects the byte. -/
theorem unknownOpcodeStopsTheRun : Obligations.UnknownOpcodeStopsTheRun := by
  rintro s ⟨hrun, hbytes⟩ hop
  exact step_of_fetchDecode_error hrun (fetchDecode_of_notMem (by omega) hop)

/-- Settles O16: the record is that of a fetch stage or of the decoded instruction, each as its row says. -/
theorem faultRecordHasTheFieldsOfItsCause : Obligations.FaultRecordHasTheFieldsOfItsCause := by
  intro s t hpc h ht
  obtain ⟨o, r, rfl, he | ⟨i, hi, rfl, hraises⟩⟩ := takeFault_of_step h ht
  · exact ⟨_, takeFault_fault s o r, describes_of_fetchDecode_error hpc he⟩
  · exact ⟨_, takeFault_fault s _ r, describes_of_raises hi hraises⟩

/-- Settles O17: neither the fetch stages nor any instruction raises it. -/
theorem aluErrorIsNeverRaised : Obligations.AluErrorIsNeverRaised := by
  intro s t h ht record hrecord
  obtain ⟨o, r, rfl, hraises⟩ := takeFault_of_step h ht
  cases hrecord
  exact hraises.cause_ne_aluError

/-! ## The output text -/

section
variable {d : Nat} (h : d < 10)
include h

theorem isDigit_digitChar : (digitChar d).isDigit = true := by
  decide +revert

theorem toNat_digitChar : (digitChar d).toNat = 48 + d := by
  decide +revert

theorem digitChar_eq_zero_iff : digitChar d = '0' ↔ d = 0 := by
  decide +revert

end

/-- The numeral of a byte is the characters of one, two or three digits, which read from the left give its value and begin
with 0 only if 0 is the whole numeral. -/
theorem decimal_eq_map_digitChar (v : Byte) :
    ∃ ds : List Nat, decimal v = ds.map digitChar ∧ (∀ d ∈ ds, d < 10) ∧
      ds.foldl (fun n d => 10 * n + d) 0 = v.toNat ∧ (ds.head? = some 0 → ds = [0]) := by
  have hv := byte_toNat_le v
  by_cases hone : v.toNat < 10
  · exact ⟨[v.toNat], by simp [decimal, hone], by simpa using hone, by simp, by simp⟩
  by_cases htwo : v.toNat < 100
  · refine ⟨[v.toNat / 10, v.toNat % 10], by simp [decimal, hone, htwo], ?_, ?_, ?_⟩ <;> simp <;> omega
  · refine ⟨[v.toNat / 100, v.toNat / 10 % 10, v.toNat % 10], by simp [decimal, hone, htwo], ?_, ?_, ?_⟩ <;>
    simp <;> omega

/-- The value read from the characters of digits, as O53 reads it, is the value of the digits. -/
theorem foldl_map_digitChar {ds : List Nat} (h : ∀ d ∈ ds, d < 10) (acc : Nat) :
    (ds.map digitChar).foldl (fun n c => 10 * n + (c.toNat - 48)) acc = ds.foldl (fun n d => 10 * n + d) acc := by
  induction ds generalizing acc with
  | nil => rfl
  | cons d ds ih =>
    obtain ⟨hd, hds⟩ := List.forall_mem_cons.mp h
    simp [toNat_digitChar hd, ih hds]

theorem outputText_append (out : List Byte) (v : Byte) :
    outputText (out ++ [v]) = outputText out ++ (decimal v ++ ['\n']) := by
  simp [outputText]

/-- Settles O53: each clause about the numeral holds of the digits that `decimal` writes. -/
theorem outputTextIsDecimalOneValuePerLine : Obligations.OutputTextIsDecimalOneValuePerLine := by
  refine ⟨rfl, outputText_append, fun v => ?_⟩
  obtain ⟨ds, hds, hlt, hval, hlead⟩ := decimal_eq_map_digitChar v
  rw [hds]
  refine ⟨?_, (foldl_map_digitChar hlt 0).trans hval, ?_⟩
  · simpa using fun d hd => isDigit_digitChar (hlt d hd)
  · intro hhead
    obtain ⟨d, hd, hchar⟩ : ∃ d, ds.head? = some d ∧ digitChar d = '0' := by simpa using hhead
    obtain rfl : d = 0 := (digitChar_eq_zero_iff (hlt d (List.mem_of_head? hd))).mp hchar
    obtain rfl := hlead hd
    exact ⟨BitVec.eq_of_toNat_eq hval.symm, rfl⟩

end Sys2Proof.Machine
end

section
/-! PROOFS, family 70_reset_and_hazards.md: the image load (R161), the boot (R163, R165), and the invariant from reset along
every run. The invariant is kept part by part; one induction carries it, or any other property a step keeps, along a run. -/

namespace Sys2Proof.Machine

/-! ## The image load, and the boot by the answers of the parser and of the load -/

section
variable {img : List Byte}

theorem loadImage_of_le (h : img.length ≤ 256) (s : State) :
    loadImage s img = .ok { s with mem := putBytes s.mem Config.loadBase img } :=
  if_neg (Nat.not_lt.mpr h)

theorem loadImage_of_gt (h : 256 < img.length) (s : State) : loadImage s img = .error .imageTooLong :=
  if_pos h

/-- A load that succeeds writes memory alone. -/
theorem eq_of_loadImage_ok {s t : State} (h : loadImage s img = .ok t) :
    t = { s with mem := putBytes s.mem Config.loadBase img } := by
  obtain htooLong | hfits := Nat.lt_or_ge 256 img.length
  · rw [loadImage_of_gt htooLong] at h
    cases h
  · rw [loadImage_of_le hfits] at h
    exact (Except.ok.inj h).symm

variable {text : List Char}

theorem boot_of_parseProgram_error {e : LoadError} (h : parseProgram text = .error e) :
    boot (some text) = (State.reset, some e) := by
  simp only [boot, h]

theorem boot_of_loadImage_error {e : LoadError} (himg : parseProgram text = .ok img)
    (h : loadImage State.reset img = .error e) : boot (some text) = (State.reset, some e) := by
  simp only [boot, himg, h]

theorem boot_of_loadImage_ok {s : State} (himg : parseProgram text = .ok img)
    (h : loadImage State.reset img = .ok s) : boot (some text) = (s, none) := by
  simp only [boot, himg, h]

end

/-- A boot that reports an error leaves the reset state, whichever of the three stages fails: the file, the parser or the
load. -/
theorem eq_reset_of_boot_error {file : Option (List Char)} {s : State} {e : LoadError} (h : boot file = (s, some e)) :
    s = State.reset := by
  cases file with
  | none => exact (congrArg Prod.fst h).symm
  | some text =>
    cases himg : parseProgram text with
    | error e' =>
      rw [boot_of_parseProgram_error himg] at h
      exact (congrArg Prod.fst h).symm
    | ok img =>
      cases hload : loadImage State.reset img with
      | error e' =>
        rw [boot_of_loadImage_error himg hload] at h
        exact (congrArg Prod.fst h).symm
      | ok s' =>
        rw [boot_of_loadImage_ok himg hload] at h
        cases congrArg Prod.snd h

/-- Settles O50: each clause is the boot at one answer of the parser and of the load. -/
theorem bootEndsAtResetWithTheImageOrAtReset : Obligations.BootEndsAtResetWithTheImageOrAtReset := by
  refine ⟨fun text img himg hfits => ?_, fun _ _ _ => eq_reset_of_boot_error, rfl, fun text img himg htooLong => ?_,
    fun text e herr => ?_⟩
  · have hload := loadImage_of_le hfits State.reset
    exact ⟨_, boot_of_loadImage_ok himg hload, hload, rfl, rfl⟩
  · rw [boot_of_loadImage_error himg (loadImage_of_gt htooLong State.reset)]
  · rw [boot_of_parseProgram_error herr]

/-! ## The invariant where there is no fault record: at reset and after the image load -/

section
variable {s t : State}

/-- Without a fault record the invariant speaks of memory, pc and the engine state alone. -/
theorem State.Inv.of_fault_eq_none (hmem : Memory.wf s.mem = true) (hpc : s.pc.toNat ≤ 256) (hfault : s.fault = none)
    (hrun : s.run ≠ .faulted) : s.Inv where
  mem := hmem
  pc := hpc
  record := by simp [hfault, hrun]
  describes := by simp [hfault]

theorem State.Inv.fault_eq_none (hs : s.Inv) (hrun : s.run = .running) : s.fault = none := by
  simpa [hrun] using hs.record

theorem inv_of_loadImage_reset {img : List Byte} (h : loadImage State.reset img = .ok s) : s.Inv := by
  rw [eq_of_loadImage_ok h]
  exact .of_fault_eq_none (wf_putBytes rfl Config.loadBase img) (Nat.zero_le 256) rfl nofun

/-! ## The invariant along a step -/

theorem Completes.wf_mem {i : Instr} (hc : Completes i s t) (hs : Memory.wf s.mem = true) : Memory.wf t.mem = true := by
  obtain hsame | ⟨-, v, hstore⟩ := hc.mem
  · rw [hsame]
    exact hs
  · rw [hstore]
    exact wf_memPut hs (byte_toNat_le _) v

/-- Where all three bytes exist, no instruction is long enough to advance past 256 (spec/10_state.md R28). -/
theorem toNat_add_instrSize_opcodeOf_le {p : PcWord} (hp : p.toNat ≤ 253) (i : Instr) :
    (p + BitVec.ofNat 9 (instrSize (opcodeOf i))).toNat ≤ 256 := by
  have hcount := operandCount_opcodeOf_le i
  rw [operandCount_eq_toNat_div] at hcount
  rw [toNat_add_instrSize hp]
  omega

/-- CALL and RET set the pc to a byte; any other instruction advances it. -/
theorem Completes.pc_le {i : Instr} (hc : Completes i s t) (hpc : s.pc.toNat ≤ 253) : t.pc.toNat ≤ 256 := by
  cases i with
  | call a =>
    obtain ⟨_, htarget⟩ := hc.pc
    rw [htarget, toNat_byte_setWidth_pc]
    exact (byte_toNat_le _).trans (by decide)
  | ret =>
    rw [hc.pc_ret, toNat_byte_setWidth_pc]
    exact (byte_toNat_le _).trans (by decide)
  | hlt | ldi | prn | mul | add | push | pop =>
    rw [hc.pc]
    exact toNat_add_instrSize_opcodeOf_le hpc _

/-- A fault commit keeps memory, pc and registers, and its record describes the state it was taken in. -/
theorem State.Inv.of_step_faulted (hs : s.Inv) (h : step s = .next t) (ht : t.run = .faulted) : t.Inv := by
  obtain ⟨record, hrecord, hdescribes⟩ := faultRecordHasTheFieldsOfItsCause s t hs.pc h ht
  obtain ⟨o, r, rfl, -⟩ := takeFault_of_step h ht
  refine ⟨hs.mem, hs.pc, iff_of_true rfl rfl, fun record' hrecord' => ?_⟩
  obtain rfl : record = record' := Option.some.inj (hrecord.symm.trans hrecord')
  exact hdescribes

/-- An instruction that completes writes no fault record, and in Running there is none before it. -/
theorem State.Inv.of_step_completes (hs : s.Inv) (h : step s = .next t) (ht : t.run ≠ .faulted) : t.Inv := by
  obtain ⟨i, hi, hc⟩ := completes_of_step h ht
  have hpc : s.pc.toNat ≤ 253 := (fetchDecode_ok_iff.mp hi).1
  exact .of_fault_eq_none (hc.wf_mem hs.mem) (hc.pc_le hpc) (hc.fault.trans (hs.fault_eq_none (step_cases h).1)) ht

theorem State.Inv.of_step (hs : s.Inv) (h : step s = .next t) : t.Inv := by
  by_cases ht : t.run = .faulted
  · exact hs.of_step_faulted h ht
  · exact hs.of_step_completes h ht

end

/-! ## Along a run -/

/-- A property that every step keeps holds at the end of every run from a state that has it. -/
theorem run_induction {M : Host.Core} {P : M.State → Prop} (hstep : ∀ s t, P s → M.step s = .next t → P t)
    {n : Nat} {s t : M.State} (hs : P s) (h : M.run n s = .next t) : P t := by
  induction n generalizing s with
  | zero =>
    cases h
    exact hs
  | succ k ih =>
    rw [Host.Core.run] at h
    split at h
    · next s' hnext => exact ih (hstep s s' hs hnext) h
    · cases h
    · cases h

/-- Settles O22: the loaded reset state meets the invariant, and every step of the run keeps it. -/
theorem everyRunOfEveryImageKeepsTheInvariant : Obligations.EveryRunOfEveryImageKeepsTheInvariant := by
  intro img s0 s n hload hrun
  exact run_induction (M := core) (P := State.Inv) (fun _ _ => State.Inv.of_step) (inv_of_loadImage_reset hload) hrun

end Sys2Proof.Machine
end

section
/-! PROOFS, family other: every instruction as one equation. It raises its first failing check, in the order register
operands, stack bound (spec/40_execution_cycle.md R89); where no check fails it leaves one state, its effect. -/

namespace Sys2Proof.Machine

/-! ## The checks of an instruction -/

/-- The first register operand byte above 7 (spec/60_exceptions.md R143). -/
def firstBadOperand (i : Instr) : Option Byte := (regOperandsOf i).find? (fun a => 7 < a.toNat)

/-- The bound of the stack that an instruction meets, as the fault it raises (spec/60_exceptions.md R144, R145). -/
def stackRaise : Instr → State → Option Raise
  | .push _, s | .call _, s => if readSp s = 0#8 then some ⟨.stackOverflow, some 0#9⟩ else none
  | .pop _, s | .ret, s =>
    if 0xF4 ≤ (readSp s).toNat then some ⟨.stackUnderflow, some ((readSp s).setWidth 9)⟩ else none
  | _, _ => none

/-- The first failing check of an instruction, as the fault it raises. -/
def firstRaise (i : Instr) (s : State) : Option Raise :=
  ((firstBadOperand i).map fun a => ⟨.outOfBoundsRegister, some (a.setWidth 9)⟩).or (stackRaise i s)

/-- The register an operand byte names; a byte above 7 raises before the register is used. -/
def regOf (a : Byte) : RegIdx := Fin.ofNat 8 a.toNat

theorem val_regOf {a : Byte} (ha : a.toNat < 8) : (regOf a).val = a.toNat := Nat.mod_eq_of_lt ha

theorem regOf_of_toNat_eq {a : Byte} {ra : RegIdx} (ha : a.toNat = ra.val) : regOf a = ra :=
  Fin.ext ((val_regOf (ha ▸ ra.isLt)).trans ha)

/-- The state after a byte is stored below SP and SP moved onto it (spec/43_stack.md R121). -/
def pushed (s : State) (v : Byte) : State :=
  { writeSp s (readSp s - 1#8) with mem := memPut s.mem (readSp s - 1#8).toNat v }

/-- The state after the byte at SP is read into a register and SP then moved past it (spec/43_stack.md R125). -/
def popped (s : State) (r : RegIdx) : State :=
  let t := writeReg s r (memByte s.mem (readSp s).toNat)
  writeSp t (readSp t + 1#8)

/-- The state an instruction leaves where no check fails. PUSH and CALL read their register after the decrement of SP. -/
def effect : Instr → State → State
  | .hlt, s => advance s.pc opHLT { s with run := .halted }
  | .ldi a imm, s => advance s.pc opLDI (writeReg s (regOf a) imm)
  | .prn a, s => advance s.pc opPRN (emit s (readReg s (regOf a)))
  | .mul a b, s => advance s.pc opMUL (writeReg s (regOf a) (alu .mul (readReg s (regOf a)) (readReg s (regOf b))))
  | .add a b, s => advance s.pc opADD (writeReg s (regOf a) (alu .add (readReg s (regOf a)) (readReg s (regOf b))))
  | .push a, s => advance s.pc opPUSH (pushed s (readReg (writeSp s (readSp s - 1#8)) (regOf a)))
  | .pop a, s => advance s.pc opPOP (popped s (regOf a))
  | .call a, s => setPc (pushed s (returnAddress s.pc)) (readReg (writeSp s (readSp s - 1#8)) (regOf a))
  | .ret, s => writeSp (setPc s (memByte s.mem (readSp s).toNat)) (readSp s + 1#8)

section
variable {i : Instr} {s : State}

theorem firstBadOperand_eq_none_iff : firstBadOperand i = none ↔ ∀ a ∈ regOperandsOf i, a.toNat < 8 := by
  simp [firstBadOperand, Nat.lt_succ_iff]

theorem firstRaise_eq_none_iff :
    firstRaise i s = none ↔ (∀ a ∈ regOperandsOf i, a.toNat < 8) ∧ stackRaise i s = none := by
  simp [firstRaise, firstBadOperand_eq_none_iff]

theorem firstRaise_of_badOperand {c : Byte} (h : firstBadOperand i = some c) :
    firstRaise i s = some ⟨.outOfBoundsRegister, some (c.setWidth 9)⟩ := by
  rw [firstRaise, h]
  rfl

theorem firstRaise_of_noBadOperand (h : firstBadOperand i = none) : firstRaise i s = stackRaise i s := by
  rw [firstRaise, h]
  rfl

theorem find?_badOperand_one {a c : Byte} (h : [a].find? (fun a => 7 < a.toNat) = some c) :
    7 < a.toNat ∧ a = c := by
  simpa using h

theorem find?_badOperand_two {a b c : Byte} (h : [a, b].find? (fun a => 7 < a.toNat) = some c) :
    (7 < a.toNat ∧ a = c) ∨ (a.toNat < 8 ∧ 7 < b.toNat ∧ b = c) := by
  simpa [List.find?_cons_eq_some, Nat.lt_succ_iff] using h

/-! ## The instruction by its first failing check -/

theorem exec_of_badOperand {c : Byte} (h : firstBadOperand i = some c) :
    exec i s = .next (takeFault s (some (opcodeOf i)) ⟨.outOfBoundsRegister, some (c.setWidth 9)⟩) := by
  cases i with
  | hlt | ret => cases h
  | ldi a imm => obtain ⟨ha, rfl⟩ := find?_badOperand_one h; exact exec_ldi_badReg ha imm
  | prn a => obtain ⟨ha, rfl⟩ := find?_badOperand_one h; exact exec_prn_badReg ha
  | push a => obtain ⟨ha, rfl⟩ := find?_badOperand_one h; exact exec_push_badReg ha
  | pop a => obtain ⟨ha, rfl⟩ := find?_badOperand_one h; exact exec_pop_badReg ha
  | call a => obtain ⟨ha, rfl⟩ := find?_badOperand_one h; exact exec_call_badReg ha
  | mul a b =>
    obtain ⟨ha, rfl⟩ | ⟨ha, hb, rfl⟩ := find?_badOperand_two h
    · exact exec_mul_badRegA ha
    · exact exec_mul_badRegB ha hb
  | add a b =>
    obtain ⟨ha, rfl⟩ | ⟨ha, hb, rfl⟩ := find?_badOperand_two h
    · exact exec_add_badRegA ha
    · exact exec_add_badRegB ha hb

theorem exec_of_stackRaise {r : Raise} (hregs : ∀ a ∈ regOperandsOf i, a.toNat < 8) (h : stackRaise i s = some r) :
    exec i s = .next (takeFault s (some (opcodeOf i)) r) := by
  cases i with
  | hlt | ldi | prn | mul | add => cases h
  | push a =>
    obtain ⟨hsp, rfl⟩ : readSp s = 0#8 ∧ _ = r := by simpa [stackRaise] using h
    exact exec_push_overflow (hregs a List.mem_cons_self) hsp
  | call a =>
    obtain ⟨hsp, rfl⟩ : readSp s = 0#8 ∧ _ = r := by simpa [stackRaise] using h
    exact exec_call_overflow (hregs a List.mem_cons_self) hsp
  | pop a =>
    obtain ⟨hsp, rfl⟩ : 0xF4 ≤ (readSp s).toNat ∧ _ = r := by simpa [stackRaise] using h
    exact exec_pop_underflow (hregs a List.mem_cons_self) hsp
  | ret =>
    obtain ⟨hsp, rfl⟩ : 0xF4 ≤ (readSp s).toNat ∧ _ = r := by simpa [stackRaise] using h
    exact exec_ret_underflow hsp

theorem exec_of_firstRaise_some {r : Raise} (h : firstRaise i s = some r) :
    exec i s = .next (takeFault s (some (opcodeOf i)) r) := by
  cases hbad : firstBadOperand i with
  | some c =>
    rw [firstRaise_of_badOperand hbad] at h
    cases h
    exact exec_of_badOperand hbad
  | none =>
    rw [firstRaise_of_noBadOperand hbad] at h
    exact exec_of_stackRaise (firstBadOperand_eq_none_iff.mp hbad) h

theorem exec_of_firstRaise_none (h : firstRaise i s = none) : exec i s = .next (effect i s) := by
  obtain ⟨hregs, hstack⟩ := firstRaise_eq_none_iff.mp h
  have mk {a : Byte} (ha : a.toNat < 8) : (⟨a.toNat, ha⟩ : RegIdx) = regOf a := (regOf_of_toNat_eq rfl).symm
  cases i with
  | hlt => rfl
  | ret => exact exec_ret (by simpa [stackRaise] using hstack)
  | ldi a imm =>
    rw [exec_ldi (hregs a List.mem_cons_self), mk]
    rfl
  | prn a =>
    rw [exec_prn (hregs a List.mem_cons_self), mk]
    rfl
  | push a =>
    rw [exec_push (hregs a List.mem_cons_self) (by simpa [stackRaise] using hstack), mk]
    rfl
  | pop a =>
    rw [exec_pop (hregs a List.mem_cons_self) (by simpa [stackRaise] using hstack), mk]
    rfl
  | call a =>
    rw [exec_call (hregs a List.mem_cons_self) (by simpa [stackRaise] using hstack), mk]
    rfl
  | mul a b =>
    rw [exec_mul (hregs a List.mem_cons_self) (hregs b (List.mem_cons_of_mem a List.mem_cons_self)), mk, mk]
    rfl
  | add a b =>
    rw [exec_add (hregs a List.mem_cons_self) (hregs b (List.mem_cons_of_mem a List.mem_cons_self)), mk, mk]
    rfl

end

end Sys2Proof.Machine
end

section
/-! PROOFS, family other: the invariant (spec/10_state.md R28, R32), and what reset leaves (R38). -/

namespace Sys2Proof.Machine

/-- Settles O20: a fault keeps memory and pc and writes a record that describes them; a completion writes none. -/
theorem stepKeepsTheInvariant : Obligations.StepKeepsTheInvariant :=
  fun _ _ hs h => hs.of_step h

/-- Settles O21: reset leaves no fault record. -/
theorem resetMeetsTheInvariant : Obligations.ResetMeetsTheInvariant :=
  .of_fault_eq_none rfl (Nat.zero_le 256) rfl nofun

/-- Settles O23: the reset state evaluated, register by register. -/
theorem resetLeavesTheTableValues : Obligations.ResetLeavesTheTableValues :=
  ⟨fun _ => rfl, by decide, rfl, rfl, rfl, rfl⟩

end Sys2Proof.Machine
end

section
/-! PROOFS, family other: the step refines the spec's pseudocode (spec/40_execution_cycle.md R89). Each operation of the model
is, flattened, the pseudocode's assignment; what an instruction raises and its effect follow from that, and then the step. -/

namespace Sys2Proof.Machine

/-! ## The state's operations, flattened -/

section
variable {s : State}

theorem flat_takeFault (o : Option Byte) (r : Raise) :
    (takeFault s o r).flat =
      s.flat.raise (causeCode r.cause) (o.map BitVec.toNat) (r.index.map BitVec.toNat) := rfl

theorem flat_x_regOf {a : Byte} (ha : a.toNat < 8) : s.flat.x a.toNat = (readReg s (regOf a)).toNat := by
  rw [regOf_of_toNat_eq (ra := ⟨a.toNat, ha⟩) rfl]
  exact dif_pos ha

theorem flat_x_sp : s.flat.x 7 = (readSp s).toNat := rfl

theorem flat_writeReg (r : RegIdx) (v : Byte) :
    (writeReg s r v).flat = { s.flat with x := setAt s.flat.x r v.toNat } := by
  have hx : (writeReg s r v).flat.x = setAt s.flat.x r v.toNat := by
    funext q
    by_cases hq : q < 8
    · simp [State.flat, setAt, readReg_writeReg, Fin.ext_iff, hq, apply_ite BitVec.toNat]
    · simp [State.flat, setAt, hq, show q ≠ r.val by omega]
  exact congrArg (fun x => { s.flat with x := x }) hx

theorem flat_memPut (hm : Memory.wf s.mem = true) (a : Nat) (v : Byte) :
    { s with mem := memPut s.mem a v }.flat = { s.flat with mem := setAt s.flat.mem a v.toNat } := by
  have hmem : { s with mem := memPut s.mem a v }.flat.mem = setAt s.flat.mem a v.toNat := by
    funext b
    simp [State.flat, setAt, memByte_memPut hm, apply_ite BitVec.toNat]
  exact congrArg (fun m => { s.flat with mem := m }) hmem

theorem flat_emit (v : Byte) : (emit s v).flat = { s.flat with out := s.flat.out ++ [v.toNat] } :=
  congrArg (fun o => { s.flat with out := o }) List.map_append

theorem flat_setPc (v : Byte) : (setPc s v).flat = { s.flat with pc := v.toNat } :=
  congrArg (fun p => { s.flat with pc := p }) (toNat_byte_setWidth_pc v)

theorem flat_advance {p : PcWord} (hp : p.toNat ≤ 253) (ir : Byte) :
    (advance p ir s).flat = { s.flat with pc := p.toNat + ir.toNat / 64 + 1 } :=
  congrArg (fun p => { s.flat with pc := p }) (toNat_add_instrSize hp ir)

/-! ## The stack pointer and the push, flattened -/

theorem flat_x_sp_ne_zero (hsp : readSp s ≠ 0#8) : s.flat.x 7 ≠ 0 :=
  fun h => hsp (BitVec.eq_of_toNat_eq h)

theorem flat_writeSp (v : Byte) : (writeSp s v).flat = { s.flat with x := setAt s.flat.x 7 v.toNat } :=
  flat_writeReg Config.spIndex v

theorem flat_writeSp_pred (hsp : readSp s ≠ 0#8) :
    (writeSp s (readSp s - 1#8)).flat = { s.flat with x := setAt s.flat.x 7 (s.flat.x 7 - 1) } := by
  rw [flat_writeSp, flat_x_sp, show (readSp s - 1#8).toNat = (readSp s).toNat - 1 by bv_omega]

theorem flat_pushed (hm : Memory.wf s.mem = true) (hsp : readSp s ≠ 0#8) (v : Byte) :
    (pushed s v).flat =
      { s.flat with x := setAt s.flat.x 7 (s.flat.x 7 - 1), mem := setAt s.flat.mem (s.flat.x 7 - 1) v.toNat } := by
  rw [flat_x_sp, ← show (readSp s - 1#8).toNat = (readSp s).toNat - 1 by bv_omega]
  refine (flat_memPut (s := writeSp s _) hm _ v).trans ?_
  rw [flat_writeSp]

/-- Where a step executes a CALL, its return address is not reduced. -/
theorem toNat_returnAddress {p : PcWord} (hp : p.toNat ≤ 253) : (returnAddress p).toNat = p.toNat + 2 :=
  (BitVec.toNat_ofNat _ _).trans (Nat.mod_eq_of_lt (by omega))

theorem toNat_add_one_of_lt {v : Byte} (hv : v.toNat < 0xF4) : (v + 1#8).toNat = v.toNat + 1 := by
  bv_omega

end

/-! ## The handlers' part of the pseudocode, by the instruction decoded -/

/-- The pseudocode at an instruction's own bytes, with whatever memory holds after them. -/
def FlatState.executeInstr (f : FlatState) (i : Instr) (rest : List Byte) : FlatState :=
  f.execute (opcodeOf i).toNat ((operandsOf i ++ rest).getD 0 0#8).toNat ((operandsOf i ++ rest).getD 1 0#8).toNat

theorem execute_of_decode {ir a b : Byte} {i : Instr} (h : decode ir a b = .ok i) (f : FlatState) :
    ∃ rest, f.execute ir.toNat a.toNat b.toNat = f.executeInstr i rest := by
  obtain ⟨rest, hrest⟩ := operandsOf_prefix_of_decode h
  exact ⟨rest, by rw [FlatState.executeInstr, hrest, opcodeOf_of_decode h]; rfl⟩

theorem execute_of_notMem {ir : Byte} (h : ir ∉ opcodes) (f : FlatState) (a b : Nat) :
    f.execute ir.toNat a b = f.raise 1 (some ir.toNat) none := by
  have hne {k : Nat} (hk : BitVec.ofNat 8 k ∈ opcodes) : ir.toNat ≠ k := by
    rintro rfl
    exact h (by simpa using hk)
  unfold FlatState.execute
  split
  case h_10 => rfl
  all_goals exact absurd ‹_› (hne (by decide))

section
variable {i : Instr} {s : State}

/-- An operand byte below 8 passes the pseudocode's check. -/
theorem not_gt_seven {a : Byte} (ha : a.toNat < 8) : ¬ a.toNat > 7 := by omega

theorem executeInstr_of_badOperand {c : Byte} (h : firstBadOperand i = some c) (f : FlatState) (rest : List Byte) :
    f.executeInstr i rest = f.raise 3 (some (opcodeOf i).toNat) (some c.toNat) := by
  cases i with
  | hlt | ret => cases h
  | ldi | prn | push | pop | call =>
    obtain ⟨ha, rfl⟩ := find?_badOperand_one h
    exact if_pos ha
  | mul | add =>
    obtain ⟨ha, rfl⟩ | ⟨ha, hb, rfl⟩ := find?_badOperand_two h
    · exact if_pos ha
    · exact (if_neg (not_gt_seven ha)).trans (if_pos hb)

theorem executeInstr_of_stackRaise {r : Raise} (hregs : ∀ a ∈ regOperandsOf i, a.toNat < 8)
    (h : stackRaise i s = some r) (rest : List Byte) :
    s.flat.executeInstr i rest =
      s.flat.raise (causeCode r.cause) (some (opcodeOf i).toNat) (r.index.map BitVec.toNat) := by
  cases i with
  | hlt | ldi | prn | mul | add => cases h
  | push a | call a =>
    obtain ⟨hsp, rfl⟩ : readSp s = 0#8 ∧ _ = r := by simpa [stackRaise] using h
    have hflat : s.flat.x 7 = 0 := congrArg BitVec.toNat hsp
    refine (if_neg (not_gt_seven (hregs a List.mem_cons_self))).trans ((if_pos hflat).trans ?_)
    rw [hflat]
    rfl
  | pop a =>
    obtain ⟨hsp, rfl⟩ : 0xF4 ≤ (readSp s).toNat ∧ _ = r := by simpa [stackRaise] using h
    refine (if_neg (not_gt_seven (hregs a List.mem_cons_self))).trans ((if_pos hsp).trans ?_)
    exact congrArg (fun sp => s.flat.raise 5 (some 0x46) (some sp)) (toNat_byte_setWidth_pc (readSp s)).symm
  | ret =>
    obtain ⟨hsp, rfl⟩ : 0xF4 ≤ (readSp s).toNat ∧ _ = r := by simpa [stackRaise] using h
    refine (if_pos hsp).trans ?_
    exact congrArg (fun sp => s.flat.raise 5 (some 0x11) (some sp)) (toNat_byte_setWidth_pc (readSp s)).symm

theorem executeInstr_of_firstRaise_none (hm : Memory.wf s.mem = true) (hpc : s.pc.toNat ≤ 253)
    (h : firstRaise i s = none) (rest : List Byte) :
    s.flat.executeInstr i rest = (effect i s).flat := by
  obtain ⟨hregs, hstack⟩ := firstRaise_eq_none_iff.mp h
  cases i with
  | hlt =>
    rw [effect, flat_advance hpc]
    rfl
  | ldi a imm =>
    have ha : a.toNat < 8 := hregs a List.mem_cons_self
    refine (if_neg (not_gt_seven ha)).trans ?_
    rw [effect, flat_advance hpc, flat_writeReg, val_regOf ha]
    rfl
  | prn a =>
    have ha : a.toNat < 8 := hregs a List.mem_cons_self
    refine (if_neg (not_gt_seven ha)).trans ?_
    rw [effect, flat_advance hpc, flat_emit, ← flat_x_regOf ha]
    rfl
  | mul a b =>
    have ha : a.toNat < 8 := hregs a List.mem_cons_self
    have hb : b.toNat < 8 := hregs b (List.mem_cons_of_mem a List.mem_cons_self)
    refine (if_neg (not_gt_seven ha)).trans ((if_neg (not_gt_seven hb)).trans ?_)
    rw [effect, flat_advance hpc, flat_writeReg, val_regOf ha, toNat_alu_mul, ← flat_x_regOf ha, ← flat_x_regOf hb]
    rfl
  | add a b =>
    have ha : a.toNat < 8 := hregs a List.mem_cons_self
    have hb : b.toNat < 8 := hregs b (List.mem_cons_of_mem a List.mem_cons_self)
    refine (if_neg (not_gt_seven ha)).trans ((if_neg (not_gt_seven hb)).trans ?_)
    rw [effect, flat_advance hpc, flat_writeReg, val_regOf ha, toNat_alu_add, ← flat_x_regOf ha, ← flat_x_regOf hb]
    rfl
  | push a =>
    have ha : a.toNat < 8 := hregs a List.mem_cons_self
    have hsp : readSp s ≠ 0#8 := by simpa [stackRaise] using hstack
    refine (if_neg (not_gt_seven ha)).trans ((if_neg (flat_x_sp_ne_zero hsp)).trans ?_)
    rw [effect, flat_advance hpc, flat_pushed hm hsp, ← flat_x_regOf ha, flat_writeSp_pred hsp]
    rfl
  | call a =>
    have ha : a.toNat < 8 := hregs a List.mem_cons_self
    have hsp : readSp s ≠ 0#8 := by simpa [stackRaise] using hstack
    refine (if_neg (not_gt_seven ha)).trans ((if_neg (flat_x_sp_ne_zero hsp)).trans ?_)
    rw [effect, flat_setPc, flat_pushed hm hsp, ← flat_x_regOf ha, flat_writeSp_pred hsp, toNat_returnAddress hpc]
    rfl
  | pop a =>
    have ha : a.toNat < 8 := hregs a List.mem_cons_self
    have hsp : ¬ 0xF4 ≤ (readSp s).toNat := by simpa [stackRaise] using hstack
    refine (if_neg (not_gt_seven ha)).trans ((if_neg hsp).trans ?_)
    rw [effect, flat_advance hpc, popped, flat_writeSp, BitVec.toNat_add, ← flat_x_sp (s := writeReg s _ _),
      flat_writeReg, val_regOf ha]
    rfl
  | ret =>
    have hsp : ¬ 0xF4 ≤ (readSp s).toNat := by simpa [stackRaise] using hstack
    refine (if_neg hsp).trans ?_
    rw [effect, flat_writeSp, flat_setPc, toNat_add_one_of_lt (by omega)]
    rfl

/-- The handlers' part of the pseudocode is the instruction, whichever check fails first or none. -/
theorem executeInstr_of_exec (hm : Memory.wf s.mem = true) (hpc : s.pc.toNat ≤ 253) {t : State}
    (h : exec i s = .next t) (rest : List Byte) : s.flat.executeInstr i rest = t.flat := by
  cases hraise : firstRaise i s with
  | none =>
    rw [exec_of_firstRaise_none hraise] at h
    cases h
    exact executeInstr_of_firstRaise_none hm hpc hraise rest
  | some r =>
    rw [exec_of_firstRaise_some hraise] at h
    cases h
    rw [flat_takeFault]
    cases hbad : firstBadOperand i with
    | some c =>
      rw [firstRaise_of_badOperand hbad] at hraise
      cases hraise
      rw [executeInstr_of_badOperand hbad, ← toNat_byte_setWidth_pc c]
      rfl
    | none =>
      rw [firstRaise_of_noBadOperand hbad] at hraise
      exact executeInstr_of_stackRaise (firstBadOperand_eq_none_iff.mp hbad) hraise rest

end

/-! ## The step, by the pc -/

namespace FlatState
variable {f : FlatState}

theorem step_of_run_ne (h : f.run ≠ .running) : f.step = none := if_pos h

variable (hrun : f.run = .running)
include hrun

theorem step_of_pc_gt (h : 255 < f.pc) : f.step = some (f.raise 2 none (some f.pc)) :=
  (if_neg (not_not.mpr hrun)).trans (if_pos h)

theorem step_of_pc_top (h : f.pc = 254 ∨ f.pc = 255) : f.step = some (f.raise 2 (some (f.mem f.pc)) (some 256)) := by
  obtain h | h := h <;> simp [step, hrun, h]

theorem step_of_pc_le (h : f.pc ≤ 253) :
    f.step = some (f.execute (f.mem f.pc) (f.mem (f.pc + 1)) (f.mem (f.pc + 2))) := by
  have inside (k : Nat) (hk : k ≤ 2) : ¬ f.pc + k > 255 := by omega
  exact (if_neg (not_not.mpr hrun)).trans
    ((if_neg (inside 0 (by decide))).trans ((if_neg (inside 1 (by decide))).trans (if_neg (inside 2 (by decide)))))

end FlatState

/-- Settles O56: the pc decides between a fault of the fetch stages and the handlers' part, which is the instruction where the
opcode byte is one of the nine and DecodeError where it is none. -/
theorem stepRefinesThePseudocode : Obligations.StepRefinesThePseudocode := by
  intro s hs
  constructor
  · intro t h
    obtain ⟨hrun, ⟨e, he, rfl⟩ | ⟨i, hi, hx⟩⟩ := step_cases h
    · rw [flat_takeFault]
      obtain ⟨habove, rfl⟩ | ⟨htop, rfl⟩ | ⟨hpc, hop, rfl⟩ := fetchDecode_error_cases he
      · exact FlatState.step_of_pc_gt hrun habove
      · exact FlatState.step_of_pc_top hrun htop
      · exact (FlatState.step_of_pc_le hrun hpc).trans (congrArg some (execute_of_notMem hop s.flat _ _))
    · obtain ⟨hpc, hdec⟩ := fetchDecode_ok_iff.mp hi
      obtain ⟨rest, hrest⟩ := execute_of_decode hdec s.flat
      refine (FlatState.step_of_pc_le hrun hpc).trans (congrArg some ?_)
      exact hrest.trans (executeInstr_of_exec hs.mem hpc hx rest)
  · intro hnone
    refine FlatState.step_of_run_ne fun hrun => ?_
    obtain ⟨t, ht⟩ := step_total hrun
    exact hnone t ht

end Sys2Proof.Machine
end

section
/-! PROOFS, family other: the bytes the decoder rejects (R66, R69), an instruction placed by the host, and what a step does to
the pc and to memory (spec/10_state.md R28, spec/20_memory.md R41). -/

namespace Sys2Proof

/-! ## The rejected bytes -/

/-- Every opcode byte is above 0x00 and below 0xC0 (R65). -/
theorem opcodes_range {ir : Byte} (h : ir ∈ opcodes) : 0 < ir.toNat ∧ ir.toNat < 0xC0 := by
  have hnine : ∀ ir ∈ opcodes, 0 < ir.toNat ∧ ir.toNat < 0xC0 := by decide
  exact hnine ir h

/-- Settles O4: rejection is membership in the nine, which the 256 bytes can be counted for. -/
theorem unknownOpcodesAreRejected : Obligations.UnknownOpcodesAreRejected := by
  refine ⟨fun ir a b => ⟨fun h => (decode_error h).1, fun h => decode_of_notMem h a b⟩, by decide +kernel, ?_⟩
  intro ir a b hout
  refine decode_of_notMem (fun hmem => ?_) a b
  obtain ⟨hpos, hlt⟩ := opcodes_range hmem
  obtain rfl | hge := hout
  · exact absurd hpos (by decide)
  · omega

/-! ## A table word -/

theorem decode_of_decodeTableWord {nbits w : Nat} {i : Instr} (h : decodeTableWord nbits w = some i) :
    decode (tableByte nbits w 0) (tableByte nbits w 1) (tableByte nbits w 2) = .ok i := by
  unfold decodeTableWord at h
  split at h
  · rename_i j hj
    rw [hj, Option.some.inj h]
  · cases h

end Sys2Proof

namespace Sys2Proof.Machine

/-- Settles O9: the word's three bytes are what the fetch stages read at pc. -/
theorem fetchWordRunsAsTheNextInstruction : Obligations.FetchWordRunsAsTheNextInstruction := by
  rintro s nbits w i hm ⟨hrun, hpc⟩ hdec
  have hfits : s.pc.toNat + (tableBytes nbits w).length ≤ 256 := Nat.succ_le_succ hpc
  have hread (k : Nat) (hk : k < (tableBytes nbits w).length) :
      memByte (s.withFetchWord nbits w).mem (s.pc.toNat + k) = (tableBytes nbits w)[k] := by
    simp [State.withFetchWord, memByte_putBytes hm _ _ hfits, hk]
  refine stepRunsDecodedInstruction (s.withFetchWord nbits w) i ⟨hrun, hpc⟩ ?_
  have h0 := hread 0 (by simp [tableBytes])
  have h1 := hread 1 (by simp [tableBytes])
  have h2 := hread 2 (by simp [tableBytes])
  rw [← decode_of_decodeTableWord hdec]
  exact congr (congr (congrArg decode h0) h1) h2

/-! ## What a step writes -/

section
variable {s t : State}

theorem StepRaises.opcode_eq {o : Option Byte} {r : Raise} (h : StepRaises s o r) :
    o = if 255 < s.pc.toNat then none else some (memByte s.mem s.pc.toNat) := by
  obtain he | ⟨i, hi, rfl, -⟩ := h
  · obtain ⟨habove, he⟩ | ⟨htop, he⟩ | ⟨hpc, -, he⟩ := fetchDecode_error_cases he
    · cases he
      exact (if_pos habove).symm
    · cases he
      exact (if_neg (by omega)).symm
    · cases he
      exact (if_neg (by omega)).symm
  · have hpc := (fetchDecode_ok_iff.mp hi).1
    rw [if_neg (by omega), opcodeOf_of_fetchDecode hi]

/-- Settles O15: a fault commit writes run and record, and whatever raised, the record has the byte at pc if there is one. -/
theorem faultWritesOnlyRunAndRecord : Obligations.FaultWritesOnlyRunAndRecord := by
  intro s t h ht
  obtain ⟨o, r, rfl, hraises⟩ := takeFault_of_step h ht
  exact ⟨rfl, rfl, rfl, rfl, _, takeFault_fault s o r, rfl, hraises.opcode_eq⟩

theorem pc_le_of_step (hpc : s.pc.toNat ≤ 256) (h : step s = .next t) : t.pc.toNat ≤ 256 := by
  obtain ⟨-, ⟨o, r, rfl, -⟩ | ⟨i, hi, hc⟩⟩ := step_inv h
  · exact hpc
  · exact hc.pc_le (fetchDecode_ok_iff.mp hi).1

/-- Only the three 3-byte instructions advance by 3 (R65). -/
theorem opcodeOf_three_bytes {i : Instr} (h : 2 ≤ (opcodeOf i).toNat / 64) : opcodeOf i ∈ [0x82#8, 0xA0#8, 0xA2#8] := by
  have hnine : ∀ ir ∈ opcodes, 2 ≤ ir.toNat / 64 → ir ∈ [0x82#8, 0xA0#8, 0xA2#8] := by decide
  exact hnine _ (opcodeOf_mem i) h

/-- A completed instruction that leaves the pc above every byte is a 3-byte one at 253. -/
theorem Completes.eq_253_of_pc_eq {i : Instr} (hc : Completes i s t) (hpc : s.pc.toNat ≤ 253) (ht : t.pc.toNat = 256) :
    s.pc.toNat = 253 ∧ opcodeOf i ∈ [0x82#8, 0xA0#8, 0xA2#8] := by
  have not_byte {v : Byte} (hv : t.pc = v.setWidth 9) : False := by
    rw [hv, toNat_byte_setWidth_pc] at ht
    have := byte_toNat_le v
    omega
  have hcount := operandCount_opcodeOf_le i
  rw [operandCount_eq_toNat_div] at hcount
  cases i with
  | call a =>
    obtain ⟨_, htarget⟩ := hc.pc
    exact (not_byte htarget).elim
  | ret => exact (not_byte hc.pc).elim
  | hlt | ldi | prn | mul | add | push | pop =>
    rw [hc.pc, toNat_add_instrSize hpc] at ht
    exact ⟨by omega, opcodeOf_three_bytes (by omega)⟩

end

/-- Settles O19: a fault keeps the pc, CALL and RET set it to a byte, and an advance passes every byte only from 253 by 3. -/
theorem pcNeverWraps : Obligations.PcNeverWraps := by
  intro s t hpc h
  refine ⟨pc_le_of_step hpc h, fun htop hrun => ?_⟩
  obtain ⟨i, hi, hc⟩ := completes_of_step h hrun
  obtain ⟨hat, hop⟩ := hc.eq_253_of_pc_eq (fetchDecode_ok_iff.mp hi).1 htop
  rw [opcodeOf_of_fetchDecode hi, hat] at hop
  exact ⟨hat, hop⟩

/-- Settles O26: a fault writes no cell, and an instruction at most its stack cell. -/
theorem stepWritesOnlyTheStackCell : Obligations.StepWritesOnlyTheStackCell := by
  intro s t h
  obtain ⟨-, ⟨e, -, rfl⟩ | ⟨i, hi, hx⟩⟩ := step_cases h
  · exact ⟨fun _ _ => rfl, fun _ => rfl⟩
  · refine ⟨sameMemoryBut_of_exec hx, fun hop => (mem_of_exec hx).resolve_right fun ⟨hstore, _⟩ => hop ?_⟩
    rwa [← opcodeOf_of_fetchDecode hi]

end Sys2Proof.Machine
end

section
/-! PROOFS, family other: which check decides a fault (R89, R148), and when a register operand does (R143). -/

namespace Sys2Proof.Machine

/-- The search for a bad operand byte, as a conditional. -/
theorem find?_badOperand_cons (a : Byte) (as : List Byte) :
    (a :: as).find? (fun a => 7 < a.toNat) =
      if 7 < a.toNat then some a else as.find? (fun a => 7 < a.toNat) := by
  by_cases ha : 7 < a.toNat <;> simp [ha]

/-! ## The checks of a decoded instruction, by its opcode byte -/

theorem firstBadOperand_of_decode {ir a b : Byte} {i : Instr} (h : decode ir a b = .ok i) :
    firstBadOperand i =
      if ir ∉ [opHLT, opRET] ∧ 7 < a.toNat then some a
      else if ir ∈ [opADD, opMUL] ∧ 7 < b.toNat then some b else none := by
  have hargs := operandsOf_prefix_of_decode h
  obtain rfl := opcodeOf_of_decode h
  cases i with
  | hlt | ret => simp [firstBadOperand, regOperandsOf, opcodeOf, opHLT, opRET, opADD, opMUL]
  | ldi | prn | push | pop | call =>
    simp only [operandsOf, List.cons_prefix_cons, List.nil_prefix, and_true] at hargs
    simp [firstBadOperand, regOperandsOf, opcodeOf, hargs, opHLT, opRET, opADD, opMUL, opLDI, opPRN, opPUSH, opPOP,
      opCALL]
  | mul | add =>
    simp only [operandsOf, List.cons_prefix_cons, List.nil_prefix, and_true] at hargs
    simp [firstBadOperand, regOperandsOf, opcodeOf, find?_badOperand_cons, hargs, opHLT, opRET, opADD, opMUL]

theorem stackRaise_eq (i : Instr) (s : State) :
    stackRaise i s =
      if opcodeOf i ∈ [opPUSH, opCALL] ∧ readSp s = 0#8 then some ⟨.stackOverflow, some 0#9⟩
      else if opcodeOf i ∈ [opPOP, opRET] ∧ 0xF4 ≤ (readSp s).toNat then
        some ⟨.stackUnderflow, some ((readSp s).setWidth 9)⟩
      else none := by
  cases i <;> simp [stackRaise, opcodeOf, opHLT, opLDI, opPRN, opMUL, opADD, opPUSH, opPOP, opCALL, opRET]

/-! ## The obligations about checks -/

theorem wellFormed_iff {i : Instr} : WellFormed i = true ↔ ∀ a ∈ regOperandsOf i, a.toNat < 8 := by
  cases i <;> simp [WellFormed, regOperandsOf]

/-- An instruction that raises OutOfBounds(register) names its first bad operand byte; the stack's two faults have causes of
their own, and a completion does not end in Faulted. -/
theorem firstBadOperand_of_exec {i : Instr} {s : State} {o : Option Byte} {ix : Option (BitVec 9)}
    (hrun : s.run = .running) (h : exec i s = .next (FaultedWith s .outOfBoundsRegister o ix)) :
    ∃ a, firstBadOperand i = some a ∧ ix = some (a.setWidth 9) := by
  obtain ⟨r, hx, hraises⟩ | ⟨t, hx, hc⟩ := exec_cases i s
  · have hrecord := congrArg State.fault (Host.Outcome.next.inj (h.symm.trans hx))
    obtain ⟨a, ha, rfl⟩ | ⟨-, -, rfl⟩ | ⟨-, -, rfl⟩ := hraises
    · cases hrecord
      exact ⟨a, ha, rfl⟩
    · cases hrecord
    · cases hrecord
  · cases h.symm.trans hx
    have hfaulted := hc.run
    rw [hrun] at hfaulted
    split at hfaulted <;> cases hfaulted

/-- Settles O39: ill-formed means that some register operand byte is bad, and the first one is what is raised. -/
theorem registerFaultExactlyWhenAnOperandIsAbove7 : Obligations.RegisterFaultExactlyWhenAnOperandIsAbove7 := by
  rintro i s ⟨hrun, -⟩
  refine ⟨?_, fun ix h => firstBadOperand_of_exec hrun h⟩
  rw [Bool.eq_false_iff, ne_eq, wellFormed_iff, ← firstBadOperand_eq_none_iff, ← ne_eq, Option.ne_none_iff_exists']
  constructor
  · rintro ⟨a, ha⟩
    exact ⟨_, exec_of_badOperand ha⟩
  · rintro ⟨ix, h⟩
    obtain ⟨a, ha, -⟩ := firstBadOperand_of_exec hrun h
    exact ⟨a, ha⟩

theorem effect_run (i : Instr) (s : State) : (effect i s).run = if i = .hlt then .halted else s.run := by
  cases i <;> rfl

theorem effect_fault (i : Instr) (s : State) : (effect i s).fault = s.fault := by
  cases i <;> rfl

theorem effect_run_ne_faulted {i : Instr} {s : State} (hrun : s.run = .running) : (effect i s).run ≠ .faulted := by
  rw [effect_run, hrun]
  split <;> nofun

/-- Settles O12: the pc and the decoder decide the first three checks, and the decoded instruction's own checks the rest. -/
theorem firstFailingCheckDecides : Obligations.FirstFailingCheckDecides := by
  intro s hrun ir a b sp
  obtain ⟨t, ht⟩ := step_total hrun
  have eq_of {t' : State} (h : step s = .next t') : t = t' := Host.Outcome.next.inj (ht.symm.trans h)
  refine ⟨t, ht, ?_⟩
  by_cases habove : 255 < s.pc.toNat
  · rw [if_pos habove]
    exact eq_of ((readsAboveMemoryFault s hrun).1 habove)
  by_cases htop : 253 < s.pc.toNat
  · rw [if_neg habove, if_pos htop]
    exact eq_of ((readsAboveMemoryFault s hrun).2 (by omega))
  have hexecuting : Executing s := ⟨hrun, by omega⟩
  by_cases hop : ir ∉ opcodes
  · rw [if_neg habove, if_neg htop]
    exact (if_pos hop).mpr (eq_of (unknownOpcodeStopsTheRun s hexecuting hop))
  obtain ⟨i, hdec⟩ := decode_of_mem (not_not.mp hop) a b
  have hir : opcodeOf i = ir := opcodeOf_of_decode hdec
  have hexec : step s = exec i s := stepRunsDecodedInstruction s i hexecuting hdec
  have hbad := firstBadOperand_of_decode hdec
  have hstack := stackRaise_eq i s
  rw [hir] at hstack
  have eq_raise {r : Raise} (h : firstRaise i s = some r) : t = takeFault s (some ir) r :=
    eq_of (by rw [hexec, exec_of_firstRaise_some h, hir])
  rw [if_neg habove, if_neg htop]
  refine (if_neg hop).mpr ?_
  split_ifs with hA hB hC hD
  · exact eq_raise (firstRaise_of_badOperand (hbad.trans (if_pos hA)))
  · exact eq_raise (firstRaise_of_badOperand (hbad.trans ((if_neg hA).trans (if_pos hB))))
  all_goals have hgood := firstRaise_of_noBadOperand (s := s) (hbad.trans ((if_neg hA).trans (if_neg hB)))
  · exact eq_raise (hgood.trans (hstack.trans (if_pos hC)))
  · exact eq_raise (hgood.trans (hstack.trans ((if_neg hC).trans (if_pos hD))))
  · have hnone : firstRaise i s = none := hgood.trans (hstack.trans ((if_neg hC).trans (if_neg hD)))
    obtain rfl : t = effect i s := eq_of (hexec.trans (exec_of_firstRaise_none hnone))
    exact ⟨effect_run_ne_faulted hrun, effect_fault i s⟩

end Sys2Proof.Machine
end

section
/-! PROOFS, family other: PRN (R101), PUSH (R124), POP (R125), CALL (R131), each by its checks and its effect, and a PUSH over
its own opcode byte (spec/20_memory.md R52). -/

namespace Sys2Proof.Machine

/-! ## The registers and the memory after a push -/

section
variable (s : State)

theorem readReg_pushed (v : Byte) (q : RegIdx) :
    readReg (pushed s v) q = if q = 7 then readReg s 7 - 1#8 else readReg s q := readReg_writeSp s q _

theorem sameRegsBut_pushed (v : Byte) : SameRegsBut [7] s (pushed s v) :=
  fun q hq => (readReg_pushed s v q).trans (if_neg (List.ne_of_not_mem_cons hq))

theorem sameMemoryBut_pushed (v : Byte) : SameMemoryBut (readReg s 7 - 1#8).toNat s (pushed s v) :=
  fun _ haddr => memByte_memPut_of_ne haddr s.mem v

variable {s}

theorem toNat_sp_pushed (hsp : readReg s 7 ≠ 0#8) (v : Byte) :
    (readReg (pushed s v) 7).toNat + 1 = (readReg s 7).toNat := by
  rw [readReg_pushed, if_pos rfl]
  bv_omega

theorem memByte_pushed_same (hm : Memory.wf s.mem = true) (v : Byte) :
    memByte (pushed s v).mem (readReg s 7 - 1#8).toNat = v := memByte_memPut_same hm _ v

end

/-! ## The registers after a pop -/

section
variable (s : State) (r : RegIdx)

theorem readReg_popped_sp :
    readReg (popped s r) 7 = (if r = 7 then memByte s.mem (readReg s 7).toNat else readReg s 7) + 1#8 := by
  rw [popped, ← readSp_eq, readSp_writeSp, readSp_eq, readReg_writeReg]
  simp [readSp_eq, eq_comm]

theorem readReg_popped_of_ne {q : RegIdx} (hq : q ≠ 7) :
    readReg (popped s r) q = if q = r then memByte s.mem (readReg s 7).toNat else readReg s q := by
  rw [popped, readReg_writeSp, if_neg hq, readReg_writeReg]
  rfl

theorem sameRegsBut_popped : SameRegsBut [r, 7] s (popped s r) := by
  intro q hq
  obtain ⟨hr, hsp⟩ : q ≠ r ∧ q ≠ 7 := by simpa using hq
  rw [readReg_popped_of_ne s r hsp, if_neg hr]

end

/-! ## The four instructions with the operand byte given by the register it names -/

section
variable {a : Byte} {s : State} {ra : RegIdx}

theorem exec_prn_of_toNat_eq (ha : a.toNat = ra.val) (s : State) :
    exec (.prn a) s = .next (advance s.pc opPRN (emit s (readReg s ra))) := by
  have hchecks : firstRaise (.prn a) s = none :=
    firstRaise_eq_none_iff.mpr ⟨by simp [regOperandsOf, ha], rfl⟩
  rw [exec_of_firstRaise_none hchecks, effect, regOf_of_toNat_eq ha]

theorem exec_push_of_toNat_eq (ha : a.toNat = ra.val) (hsp : readReg s 7 ≠ 0#8) :
    exec (.push a) s =
      .next (advance s.pc opPUSH (pushed s (if ra = 7 then readReg s 7 - 1#8 else readReg s ra))) := by
  have hchecks : firstRaise (.push a) s = none :=
    firstRaise_eq_none_iff.mpr ⟨by simp [regOperandsOf, ha], if_neg hsp⟩
  rw [exec_of_firstRaise_none hchecks, effect, regOf_of_toNat_eq ha, readReg_writeSp]
  rfl

theorem exec_pop_of_toNat_eq (ha : a.toNat = ra.val) (hsp : (readReg s 7).toNat < 0xF4) :
    exec (.pop a) s = .next (advance s.pc opPOP (popped s ra)) := by
  have hchecks : firstRaise (.pop a) s = none :=
    firstRaise_eq_none_iff.mpr ⟨by simp [regOperandsOf, ha], if_neg (Nat.not_le.mpr hsp)⟩
  rw [exec_of_firstRaise_none hchecks, effect, regOf_of_toNat_eq ha]

theorem exec_call_of_toNat_eq (ha : a.toNat = ra.val) (hsp : readReg s 7 ≠ 0#8) :
    exec (.call a) s =
      .next (setPc (pushed s (returnAddress s.pc)) (if ra = 7 then readReg s 7 - 1#8 else readReg s ra)) := by
  have hchecks : firstRaise (.call a) s = none :=
    firstRaise_eq_none_iff.mpr ⟨by simp [regOperandsOf, ha], if_neg hsp⟩
  rw [exec_of_firstRaise_none hchecks, effect, regOf_of_toNat_eq ha, readReg_writeSp]
  rfl

end

/-! ## The obligations of the four instructions -/

/-- Settles O31: the register operand decides between the fault and the emission, which changes the output alone. -/
theorem prnEmitsTheRegister : Obligations.PrnEmitsTheRegister := by
  refine ⟨fun a b => ⟨rfl, decode_opcodeOf_operandsOf (.prn a) [b]⟩, ?_⟩
  rintro a s ⟨-, hbytes⟩
  refine ⟨exec_prn_badReg, fun ra ha => ?_⟩
  exact ⟨_, exec_prn_of_toNat_eq ha s, rfl, fun _ _ => rfl, toNat_add_instrSize (by omega) opPRN, fun _ => rfl, rfl, rfl⟩

/-- Settles O34: the register operand and the bound decide between the two faults and the push. -/
theorem pushStoresBelowTheStackPointer : Obligations.PushStoresBelowTheStackPointer := by
  refine ⟨fun a b => ⟨rfl, decode_opcodeOf_operandsOf (.push a) [b]⟩, ?_⟩
  rintro a s hm ⟨-, hbytes⟩
  refine ⟨exec_push_badReg, fun ha hsp => exec_push_overflow (Nat.lt_succ_of_le ha) hsp, fun ra ha hsp => ?_⟩
  let v : Byte := if ra = 7 then readReg s 7 - 1#8 else readReg s ra
  exact ⟨_, exec_push_of_toNat_eq ha hsp, toNat_sp_pushed hsp v, sameRegsBut_pushed s v, memByte_pushed_same hm v,
    sameMemoryBut_pushed s v, toNat_add_instrSize (by omega) opPUSH, rfl, rfl, rfl⟩

/-- Settles O35: the register operand and the bound decide between the two faults and the pop, which stores nothing. -/
theorem popLoadsFromTheStackPointer : Obligations.PopLoadsFromTheStackPointer := by
  refine ⟨fun a b => ⟨rfl, decode_opcodeOf_operandsOf (.pop a) [b]⟩, ?_⟩
  rintro a s ⟨-, hbytes⟩
  refine ⟨exec_pop_badReg, fun ha hsp => exec_pop_underflow (Nat.lt_succ_of_le ha) hsp, fun ra ha hsp => ?_⟩
  refine ⟨_, exec_pop_of_toNat_eq ha hsp, fun hra => ⟨?_, ?_⟩, fun hra => ?_, sameRegsBut_popped s ra, fun _ => rfl,
    toNat_add_instrSize (by omega) opPOP, rfl, rfl, rfl⟩
  · rw [readReg_advance, readReg_popped_of_ne s ra hra, if_pos rfl]
  · rw [readReg_advance, readReg_popped_sp, if_neg hra, toNat_add_one_of_lt hsp]
  · rw [readReg_advance, readReg_popped_sp, if_pos hra]
    exact BitVec.toNat_add _ _

/-- Settles O37: as for PUSH, the byte stored being the return address, and the pc then set. -/
theorem callPushesPcPlus2AndJumps : Obligations.CallPushesPcPlus2AndJumps := by
  refine ⟨fun a b => ⟨rfl, decode_opcodeOf_operandsOf (.call a) [b]⟩, ?_⟩
  rintro a s hm ⟨-, hbytes⟩
  refine ⟨exec_call_badReg, fun ha hsp => exec_call_overflow (Nat.lt_succ_of_le ha) hsp, fun ra ha hsp => ?_⟩
  let v : Byte := returnAddress s.pc
  have hreturn : (memByte (pushed s v).mem (readReg s 7 - 1#8).toNat).toNat = s.pc.toNat + 2 := by
    rw [memByte_pushed_same hm, toNat_returnAddress (by omega)]
  exact ⟨_, exec_call_of_toNat_eq ha hsp, toNat_sp_pushed hsp v, sameRegsBut_pushed s v, hreturn,
    sameMemoryBut_pushed s v, toNat_byte_setWidth_pc _, rfl, rfl, rfl⟩

/-! ## A PUSH over its own opcode byte -/

theorem fetchDecode_push {s : State} (hpc : s.pc.toNat ≤ 253) (hop : memByte s.mem s.pc.toNat = 0x45#8) :
    fetchDecode s = .ok (.push (memByte s.mem (s.pc.toNat + 1))) :=
  fetchDecode_ok_iff.mpr ⟨hpc, by rw [hop]; rfl⟩

/-- Settles O27: the step has read the old byte before the push stores the new one, which a later fetch there reads. -/
theorem pushOverItsOwnOpcodeRunsTheOldByte : Obligations.PushOverItsOwnOpcodeRunsTheOldByte := by
  intro s ra hm hexecuting hop ha hsp hcell pushed
  have hpc : s.pc.toNat ≤ 253 := Nat.le_of_add_le_add_right hexecuting.2
  have hstep := step_of_fetchDecode_ok hexecuting.1 (fetchDecode_push hpc hop)
  obtain ⟨-, -, hpush⟩ := pushStoresBelowTheStackPointer.2 (memByte s.mem (s.pc.toNat + 1)) s hm hexecuting
  obtain ⟨t, ht, hspt, -, hstored, -, hpct, -, -⟩ := hpush ra ha hsp
  rw [hcell] at hstored
  refine ⟨t, hstep.trans ht, hpct, by bv_omega, hstored, fun u hmem hrun hpcu hnot => ?_⟩
  have hnew : memByte u.mem u.pc.toNat = pushed := by rw [hmem, hpcu, hstored]
  rw [← hnew] at hnot ⊢
  exact step_of_fetchDecode_error hrun (fetchDecode_of_notMem (hpcu ▸ hpc) hnot)

end Sys2Proof.Machine
end

section
/-! PROOFS, family other: what is pushed is popped (R121), and a CALL's return address is where its RET goes (R133). -/

namespace Sys2Proof.Machine

/-! ## Push, then pop -/

/-- Settles O46: the pop reads the cell the push stored, at the decremented SP, which is below the bound. -/
theorem pushThenPopRestores : Obligations.PushThenPopRestores := by
  intro s a b ra rb hm _ ha hb hsp hbase v
  let t := advance s.pc opPUSH (pushed s v)
  have hspt : readReg t 7 = readReg s 7 - 1#8 := (readReg_pushed s v 7).trans (if_pos rfl)
  have hcell : memByte t.mem (readReg t 7).toNat = v := hspt ▸ memByte_pushed_same hm v
  refine ⟨t, _, exec_push_of_toNat_eq ha hsp, exec_pop_of_toNat_eq hb (by bv_omega), fun hrb => ⟨?_, ?_⟩, fun hrb => ?_,
    fun q hq => ?_⟩
  · rw [readReg_advance, readReg_popped_of_ne t rb hrb, if_pos rfl, hcell]
  · rw [readReg_advance, readReg_popped_sp, if_neg hrb, hspt, BitVec.sub_add_cancel]
  · rw [readReg_advance, readReg_popped_sp, if_pos hrb, hcell]
  · rw [readReg_advance, sameRegsBut_popped t rb q hq]
    exact sameRegsBut_pushed s v q (List.not_mem_of_not_mem_cons hq)

/-! ## A CALL that completes and a RET -/

/-- What a CALL that completes leaves (spec/44_control_transfer.md R131): its return address at the new SP. -/
structure Called (s t : State) : Prop where
  /-- SP has dropped by one. -/
  sp : (readReg t 7).toNat + 1 = (readReg s 7).toNat
  /-- The other registers are kept. -/
  regs : SameRegsBut [7] s t
  /-- The return address is at SP. -/
  ret : (memByte t.mem (readReg t 7).toNat).toNat = s.pc.toNat + 2
  /-- The other cells are kept. -/
  mem : SameMemoryBut (readReg t 7).toNat s t
  /-- The output is kept. -/
  out : t.out = s.out

section
variable {s t : State}

theorem firstRaise_eq_none_of_exec {i : Instr} (h : exec i s = .next t) (ht : t.run ≠ .faulted) :
    firstRaise i s = none := by
  by_contra hne
  obtain ⟨r, hr⟩ := Option.ne_none_iff_exists'.mp hne
  rw [exec_of_firstRaise_some hr] at h
  cases h
  exact ht (takeFault_run s _ r)

/-- A CALL that does not fault names a register and finds room on the stack. -/
theorem called_of_step (hm : Memory.wf s.mem = true) (hs : Executing s) (hop : memByte s.mem s.pc.toNat = 0x50#8)
    (h : step s = .next t) (ht : t.run = .running) : Called s t := by
  rw [step_of_fetchDecode_ok hs.1 (fetchDecode_call (Nat.le_of_add_le_add_right hs.2) hop)] at h
  obtain ⟨hregs, hstack⟩ := firstRaise_eq_none_iff.mp (firstRaise_eq_none_of_exec h (by rw [ht]; nofun))
  have ha : (memByte s.mem (s.pc.toNat + 1)).toNat < 8 := hregs _ List.mem_cons_self
  have hsp : readSp s ≠ 0#8 := by simpa [stackRaise] using hstack
  obtain ⟨-, -, hcall⟩ := callPushesPcPlus2AndJumps.2 (memByte s.mem (s.pc.toNat + 1)) s hm hs
  obtain ⟨t', ht', hsp', hkeep, hret, hmem, -, hout, -⟩ := hcall ⟨_, ha⟩ rfl hsp
  cases h.symm.trans ht'
  have hspt : readReg s 7 - 1#8 = readReg t 7 := by bv_omega
  rw [hspt] at hret hmem
  exact ⟨hsp', hkeep, hret, hmem, hout⟩

/-- A RET that stands at pc pops, from a stack that is not empty. -/
theorem step_ret (hs : Executing s) (hop : memByte s.mem s.pc.toNat = 0x11#8) (hsp : (readReg s 7).toNat < 0xF4) :
    ∃ t, step s = .next t ∧ t.pc.toNat = (memByte s.mem (readReg s 7).toNat).toNat ∧
      (readReg t 7).toNat = (readReg s 7).toNat + 1 ∧ SameRegsBut [7] s t ∧ SameMemory s t ∧ t.out = s.out ∧
      SameStatus s t := by
  rw [step_of_fetchDecode_ok hs.1 (fetchDecode_ret (Nat.le_of_add_le_add_right hs.2) hop)]
  exact (retPopsIntoThePc.2 s hs).2 hsp

theorem wf_mem_of_step (hm : Memory.wf s.mem = true) (h : step s = .next t) : Memory.wf t.mem = true := by
  obtain ⟨-, ⟨o, r, rfl, -⟩ | ⟨i, -, hc⟩⟩ := step_inv h
  · exact hm
  · exact hc.wf_mem hm

end

/-- Settles O47: the RET reads the cell the CALL stored, and raises SP by what the CALL lowered it. -/
theorem callThenRetReturnsToCallPlus2 : Obligations.CallThenRetReturnsToCallPlus2 := by
  intro s t hm hs hop hbase h ht hret
  have hcalled := called_of_step hm hs hop h ht.1
  have hsp := hcalled.sp
  obtain ⟨u, hu, hpc, hspu, hregs, hmem, hout, hstatus, -⟩ := step_ret ht hret (by omega)
  have hspt : readReg s 7 - 1#8 = readReg t 7 := by bv_omega
  refine ⟨u, hu, hpc.trans hcalled.ret, fun q _ => ?_, hstatus.trans ht.1, hout.trans hcalled.out, fun addr haddr => ?_⟩
  · by_cases hq : q = 7
    · subst hq
      exact BitVec.eq_of_toNat_eq (hspu.trans hsp)
    · have hq' : q ∉ [(7 : RegIdx)] := by simpa using hq
      exact (hregs q hq').trans (hcalled.regs q hq')
  · rw [hspt] at haddr
    exact (hmem addr).trans (hcalled.mem addr haddr)

/-- Settles O48: the inner CALL and RET keep the outer return address, which lies above the cell they use, and SP. -/
theorem nestedCallsReturnInReverseOrder : Obligations.NestedCallsReturnInReverseOrder := by
  intro s t1 t2 t3 hm hbase hs hop h1 ht1 hop1 h2 ht2 hop2 h3 ht3 hop3
  have houter := called_of_step hm hs hop h1 ht1.1
  have hsp := houter.sp
  obtain ⟨t3', h3', hpc3, hregs3, -, -, hmem3⟩ :=
    callThenRetReturnsToCallPlus2 t1 t2 (wf_mem_of_step hm h1) ht1 hop1 (by omega) h2 ht2 hop2
  cases h3.symm.trans h3'
  have hsp3 : readReg t3 7 = readReg t1 7 := hregs3 7 List.not_mem_nil
  have hinner : (readReg t1 7).toNat ≠ (readReg t1 7 - 1#8).toNat := by bv_omega
  obtain ⟨u, hu, hpcu, hspu, -⟩ := step_ret ht3 hop3 (by rw [hsp3]; omega)
  refine ⟨hpc3, u, hu, ?_, ?_⟩
  · rw [hpcu, hsp3, hmem3 _ hinner, houter.ret]
  · rw [hsp3, hsp] at hspu
    exact BitVec.eq_of_toNat_eq hspu

end Sys2Proof.Machine
end

section
/-! PROOFS, family other: what has no influence, a register that an instruction does not use (spec/10_state.md R24) and the
output emitted earlier (R37). Both are a change of the state that commutes with every operation an instruction is made of. -/

namespace Sys2Proof.Machine

/-- A change `f` of the state that no operation on the registers in `R` sees or undoes. -/
structure Unseen (R : RegIdx → Prop) (f : State → State) : Prop where
  /-- Memory is kept. -/
  mem : ∀ s, (f s).mem = s.mem
  /-- The pc is kept. -/
  pc : ∀ s, (f s).pc = s.pc
  /-- Registers in `R` are kept. -/
  reads : ∀ s r, R r → readReg (f s) r = readReg s r
  /-- A write to a register in `R` commutes. -/
  writes : ∀ s r v, R r → writeReg (f s) r v = f (writeReg s r v)
  /-- A change of memory commutes. -/
  stores : ∀ s m, { f s with mem := m } = f { s with mem := m }
  /-- A change of the pc commutes. -/
  jumps : ∀ s p, { f s with pc := p } = f { s with pc := p }
  /-- An emission commutes. -/
  emits : ∀ s v, emit (f s) v = f (emit s v)
  /-- Halting commutes. -/
  halts : ∀ s, { f s with run := .halted } = f { s with run := .halted }
  /-- A fault commit commutes. -/
  faults : ∀ s o r, takeFault (f s) o r = f (takeFault s o r)

/-- The registers an instruction reads or writes (spec/10_state.md R24): those its operand bytes name, and SP. -/
def UsesReg (i : Instr) (q : RegIdx) : Prop :=
  (∃ a ∈ regOperandsOf i, q.val = a.toNat) ∨ (opcodeOf i ∈ [opPUSH, opPOP, opCALL, opRET] ∧ q = 7)

theorem usesReg_regOf {i : Instr} {a : Byte} (hmem : a ∈ regOperandsOf i) (ha : a.toNat < 8) : UsesReg i (regOf a) :=
  .inl ⟨a, hmem, val_regOf ha⟩

section
variable {R : RegIdx → Prop} {f : State → State} {i : Instr} {s t : State}

theorem Unseen.pushed (hf : Unseen R f) (hsp : R 7) (s : State) (v : Byte) : pushed (f s) v = f (pushed s v) := by
  have hread : readSp (f s) = readSp s := hf.reads s 7 hsp
  have hwrite : writeSp (f s) (readSp s - 1#8) = f (writeSp s (readSp s - 1#8)) := hf.writes s 7 _ hsp
  rw [Machine.pushed, hread, hwrite, hf.mem]
  exact hf.stores _ _

theorem Unseen.popped (hf : Unseen R f) (hsp : R 7) {r : RegIdx} (hr : R r) (s : State) :
    popped (f s) r = f (popped s r) := by
  let t := writeReg s r (memByte s.mem (readSp s).toNat)
  have hread : readSp (f s) = readSp s := hf.reads s 7 hsp
  have hreadt : readSp (f t) = readSp t := hf.reads t 7 hsp
  rw [Machine.popped, hread, hf.mem, hf.writes s r _ hr]
  change writeSp (f t) (readSp (f t) + 1#8) = f (writeSp t (readSp t + 1#8))
  rw [hreadt]
  exact hf.writes t 7 _ hsp

/-- What PUSH and CALL read of their register, after the decrement of SP. -/
theorem Unseen.reads_writeSp_pred (hf : Unseen R f) (hsp : R 7) {r : RegIdx} (hr : R r) (s : State) :
    readReg (writeSp (f s) (readSp (f s) - 1#8)) r = readReg (writeSp s (readSp s - 1#8)) r := by
  have hread : readSp (f s) = readSp s := hf.reads s 7 hsp
  have hwrite : writeSp (f s) (readSp s - 1#8) = f (writeSp s (readSp s - 1#8)) := hf.writes s 7 _ hsp
  rw [hread, hwrite, hf.reads _ _ hr]

variable (hf : Unseen R f) (hR : ∀ q, UsesReg i q → R q)
include hf hR

theorem stackRaise_unseen : stackRaise i (f s) = stackRaise i s := by
  cases i with
  | hlt | ldi | prn | mul | add => rfl
  | push | pop | call | ret =>
    have hsp : readSp (f s) = readSp s := hf.reads s 7 (hR 7 (.inr ⟨by simp [opcodeOf], rfl⟩))
    rw [stackRaise, stackRaise, hsp]

theorem firstRaise_unseen : firstRaise i (f s) = firstRaise i s := by
  rw [firstRaise, firstRaise, stackRaise_unseen hf hR]

theorem effect_unseen (hregs : ∀ a ∈ regOperandsOf i, a.toNat < 8) : effect i (f s) = f (effect i s) := by
  have hop {a : Byte} (hmem : a ∈ regOperandsOf i) : R (regOf a) := hR _ (usesReg_regOf hmem (hregs a hmem))
  cases i with
  | hlt =>
    rw [effect, effect, hf.halts, hf.pc]
    exact hf.jumps _ _
  | ldi a imm =>
    rw [effect, effect, hf.writes _ _ _ (hop List.mem_cons_self), hf.pc]
    exact hf.jumps _ _
  | prn a =>
    rw [effect, effect, hf.reads _ _ (hop List.mem_cons_self), hf.emits, hf.pc]
    exact hf.jumps _ _
  | mul a b | add a b =>
    have ha : R (regOf a) := hop List.mem_cons_self
    have hb : R (regOf b) := hop (List.mem_cons_of_mem a List.mem_cons_self)
    rw [effect, effect, hf.reads _ _ ha, hf.reads _ _ hb, hf.writes _ _ _ ha, hf.pc]
    exact hf.jumps _ _
  | push a | call a =>
    have hsp : R 7 := hR 7 (.inr ⟨by simp [opcodeOf], rfl⟩)
    rw [effect, effect, hf.reads_writeSp_pred hsp (hop List.mem_cons_self), hf.pushed hsp, hf.pc]
    exact hf.jumps _ _
  | pop a =>
    have hsp : R 7 := hR 7 (.inr ⟨by simp [opcodeOf], rfl⟩)
    rw [effect, effect, hf.popped hsp (hop List.mem_cons_self), hf.pc]
    exact hf.jumps _ _
  | ret =>
    have hsp : R 7 := hR 7 (.inr ⟨by simp [opcodeOf], rfl⟩)
    have hread : readSp (f s) = readSp s := hf.reads s 7 hsp
    have hjump (v : Byte) : setPc (f s) v = f (setPc s v) := hf.jumps s _
    rw [effect, effect, hread, hf.mem, hjump]
    exact hf.writes _ 7 _ hsp

theorem exec_unseen (h : exec i s = .next t) : exec i (f s) = .next (f t) := by
  have hsame := firstRaise_unseen (s := s) hf hR
  cases hraise : firstRaise i s with
  | some r =>
    rw [exec_of_firstRaise_some hraise] at h
    cases h
    rw [exec_of_firstRaise_some (hsame.trans hraise), hf.faults]
  | none =>
    rw [exec_of_firstRaise_none hraise] at h
    cases h
    rw [exec_of_firstRaise_none (hsame.trans hraise), effect_unseen hf hR (firstRaise_eq_none_iff.mp hraise).1]

end

/-! ## A register the instruction does not use -/

theorem exec_total (i : Instr) (s : State) : ∃ t, exec i s = .next t := by
  obtain ⟨r, h, -⟩ | ⟨t, h, -⟩ := exec_cases i s
  · exact ⟨_, h⟩
  · exact ⟨t, h⟩

theorem unseen_writeReg (q : RegIdx) (v : Byte) : Unseen (· ≠ q) (writeReg · q v) where
  mem _ := rfl
  pc _ := rfl
  reads s _ hr := readReg_writeReg_of_ne s hr v
  writes s _ w hr := congrArg (fun x => { s with x := x }) (Vector.set_comm v w fun e => hr (Fin.ext e.symm))
  stores _ _ := rfl
  jumps _ _ := rfl
  emits _ _ := rfl
  halts _ := rfl
  faults _ _ _ := rfl

/-- Settles O43: a write to a register the instruction does not use is a change it does not see. -/
theorem unreadRegisterHasNoInfluence : Obligations.UnreadRegisterHasNoInfluence := by
  intro i s q v hq
  obtain ⟨t, ht⟩ := exec_total i s
  have hunused : ¬ UsesReg i q := by
    cases i with
    | hlt => simp [UsesReg, regOperandsOf, opcodeOf, opHLT, opPUSH, opPOP, opCALL, opRET]
    | ldi | prn | mul | add =>
      simpa [UsesReg, regOperandsOf, opcodeOf, opLDI, opPRN, opMUL, opADD, opPUSH, opPOP, opCALL, opRET] using hq
    | push | pop | call | ret => simpa [UsesReg, regOperandsOf, opcodeOf] using hq
  exact ⟨t, ht, exec_unseen (unseen_writeReg q v) (fun r hr e => hunused (e ▸ hr)) ht⟩

/-! ## The output emitted earlier -/

/-- The state with values put before its output. -/
def withEarlierOutput (earlier : List Byte) (s : State) : State := { s with out := earlier ++ s.out }

theorem unseen_withEarlierOutput (earlier : List Byte) : Unseen (fun _ => True) (withEarlierOutput earlier) where
  mem _ := rfl
  pc _ := rfl
  reads _ _ _ := rfl
  writes _ _ _ _ := rfl
  stores _ _ := rfl
  jumps _ _ := rfl
  emits s v := congrArg (fun o => { s with out := o }) (List.append_assoc earlier s.out [v])
  halts _ := rfl
  faults _ _ _ := rfl

/-- The fetch stages read memory and pc alone. -/
theorem fetchDecode_congr {s t : State} (hm : t.mem = s.mem) (hp : t.pc = s.pc) : fetchDecode t = fetchDecode s := by
  simp only [fetchDecode, hm, hp]

theorem step_withEarlierOutput {s t : State} (earlier : List Byte) (h : step s = .next t) :
    step (withEarlierOutput earlier s) = .next (withEarlierOutput earlier t) := by
  have hfetch : fetchDecode (withEarlierOutput earlier s) = fetchDecode s := fetchDecode_congr rfl rfl
  obtain ⟨hrun, ⟨e, he, rfl⟩ | ⟨i, hi, hx⟩⟩ := step_cases h
  · exact step_of_fetchDecode_error hrun (hfetch.trans he)
  · have hstep := step_of_fetchDecode_ok (s := withEarlierOutput earlier s) hrun (hfetch.trans hi)
    exact hstep.trans (exec_unseen (unseen_withEarlierOutput earlier) (fun _ _ => trivial) hx)

/-- Settles O29: a change of the earlier output is one that no instruction sees, and the fetch stages do not read it. -/
theorem earlierOutputHasNoInfluence : Obligations.EarlierOutputHasNoInfluence := by
  intro s earlier
  change step (withEarlierOutput earlier s) = _
  cases hrun : s.run with
  | halted =>
    rw [step_of_halted hrun]
    exact step_of_halted hrun
  | faulted =>
    rw [step_of_faulted hrun]
    exact step_of_faulted hrun
  | running =>
    obtain ⟨t, ht⟩ := step_total hrun
    rw [ht]
    exact step_withEarlierOutput earlier ht

end Sys2Proof.Machine
end

section
/-! PROOFS, family other: the ALU as arithmetic modulo 256 (R110) and its laws (R113). -/

namespace Sys2Proof.Machine

/-- Settles O44: the two values of the ALU, as natural numbers. -/
theorem aluIsArithmeticModulo256 : Obligations.AluIsArithmeticModulo256 :=
  fun va vb => ⟨toNat_alu_add va vb, toNat_alu_mul va vb⟩

theorem alu_add_eq (va vb : Byte) : alu .add va vb = va + vb :=
  BitVec.eq_of_toNat_eq ((toNat_alu_add va vb).trans (BitVec.toNat_add va vb).symm)

theorem alu_mul_eq (va vb : Byte) : alu .mul va vb = va * vb :=
  BitVec.eq_of_toNat_eq ((toNat_alu_mul va vb).trans (BitVec.toNat_mul va vb).symm)

/-- Settles O45: the two operations are the sum and the product of bit vectors, whose laws these are. -/
theorem aluLawsOfModularArithmetic : Obligations.AluLawsOfModularArithmetic := by
  refine ⟨fun op u v w => ?_, fun u v w => ?_, fun u => ?_⟩
  · cases op with
    | add =>
      simp only [alu_add_eq]
      exact ⟨BitVec.add_comm u v, BitVec.add_assoc u v w⟩
    | mul =>
      simp only [alu_mul_eq]
      exact ⟨BitVec.mul_comm u v, BitVec.mul_assoc u v w⟩
  · simp only [alu_add_eq, alu_mul_eq]
    exact BitVec.mul_add
  · rw [alu_add_eq, alu_mul_eq, alu_mul_eq]
    exact ⟨BitVec.add_zero u, BitVec.mul_zero, BitVec.mul_one u⟩

end Sys2Proof.Machine
end

section
/-! PROOFS, family other: the host's side. The image in memory (R161), the program file (R162), the exit statuses (R157) and
the debug read (R155). -/

namespace Sys2Proof.Machine

/-! ## The image load -/

/-- Settles O49: a block of bytes stored from address 0 into a memory that reads 0 everywhere. -/
theorem imageLoadFillsMemoryFromZero : Obligations.ImageLoadFillsMemoryFromZero := by
  refine ⟨fun img hfits => ?_, fun img htooLong => loadImage_of_gt htooLong State.reset⟩
  have hread (k : Nat) := memByte_putBytes (m := State.reset.mem) rfl 0 img (by omega) k
  refine ⟨_, loadImage_of_le hfits State.reset, fun k hk => ?_, fun k hk => ?_, rfl, wf_putBytes rfl 0 img⟩
  · exact (hread k).trans (dif_pos ⟨Nat.zero_le k, by omega⟩)
  · exact (hread k).trans (dif_neg (by omega))

/-! ## Lines that hold no byte, and comments -/

/-- A comment after a line without one leaves the retained text as it was. -/
theorem retainedText_append_comment {line : List Char} (h : '#' ∉ line) (comment : List Char) :
    retainedText (line ++ '#' :: comment) = retainedText line := by
  have hkeep : ∀ c ∈ line, decide (c ≠ '#') = true := fun c hc => decide_eq_true fun e => h (e ▸ hc)
  have hcut : ('#' :: comment).takeWhile (· ≠ '#') = [] := List.takeWhile_cons_of_neg (by simp)
  rw [retainedText, retainedText, List.takeWhile_append_of_pos hkeep, hcut, List.append_nil,
    List.takeWhile_eq_self_iff.mpr hkeep]

theorem parseLine_append_comment {line : List Char} (h : '#' ∉ line) (comment : List Char) :
    parseLine (line ++ '#' :: comment) = parseLine line := by
  rw [parseLine, parseLine, retainedText_append_comment h]

/-- A line of white space holds no byte. -/
theorem parseLine_of_whitespace {space : List Char} (h : ∀ c ∈ space, c.isWhitespace = true) :
    parseLine space = .ok none := by
  have htrim : retainedText space = [] := by
    have hall : (space.takeWhile (· ≠ '#')).dropWhile Char.isWhitespace = [] :=
      List.dropWhile_eq_nil_iff.mpr fun c hc => h c (List.takeWhile_subset _ hc)
    rw [retainedText, trimSpace, hall]
    rfl
  rw [parseLine, htrim]
  rfl

/-- A line that holds no byte can stand anywhere, by induction on the lines before it. -/
theorem parseLines_insert {line : List Char} (h : parseLine line = .ok none) (before after : List (List Char)) :
    parseLines (before ++ line :: after) = parseLines (before ++ after) := by
  induction before with
  | nil =>
    rw [List.nil_append, List.nil_append, parseLines, h]
    cases parseLines after <;> rfl
  | cons l ls ih => rw [List.cons_append, List.cons_append, parseLines, parseLines, ih]

/-- Settles O51: white space holds no byte, and with a comment after it still none. -/
theorem loaderIgnoresBlankLinesAndComments : Obligations.LoaderIgnoresBlankLinesAndComments := by
  refine ⟨fun before after space comment hspace => ?_, fun line comment h => parseLine_append_comment h comment⟩
  have hnoComment : '#' ∉ space := fun hmem => absurd (hspace '#' hmem) (by decide)
  have hblank := parseLine_of_whitespace hspace
  exact ⟨parseLines_insert hblank before after,
    parseLines_insert ((parseLine_append_comment hnoComment comment).trans hblank) before after⟩

/-! ## The text of an image -/

theorem splitLines_append_newline {line : List Char} (h : '\n' ∉ line) (rest : List Char) :
    splitLines (line ++ '\n' :: rest) = line :: splitLines rest := by
  induction line with
  | nil => rfl
  | cons c cs ih =>
    have hc : c ≠ '\n' := (List.ne_of_not_mem_cons h).symm
    rw [List.cons_append, splitLines, if_neg hc, ih (List.not_mem_of_not_mem_cons h)]

/-- One character of a literal is the next lower bit of its value. -/
theorem binaryValue_bit (v : Byte) (k : Nat) (cs : List Char) :
    binaryValue (v.toNat / 2 ^ (k + 1)) ((if v.getLsbD k then '1' else '0') :: cs) =
      binaryValue (v.toNat / 2 ^ k) cs := by
  have hbit : v.getLsbD k = decide (v.toNat / 2 ^ k % 2 = 1) := Nat.testBit_eq_decide_div_mod_eq
  have hhigh : v.toNat / 2 ^ (k + 1) = v.toNat / 2 ^ k / 2 := by rw [Nat.pow_succ, Nat.div_div_eq_div_mul]
  rw [hbit, hhigh]
  by_cases hodd : v.toNat / 2 ^ k % 2 = 1
  · have hvalue : 2 * (v.toNat / 2 ^ k / 2) + 1 = v.toNat / 2 ^ k := by omega
    simp [binaryValue, hodd, hvalue]
  · have hvalue : 2 * (v.toNat / 2 ^ k / 2) = v.toNat / 2 ^ k := by omega
    simp [binaryValue, hodd, hvalue]

/-- The literal is read from its high end, where no bit is left of the value. -/
theorem binaryValue_binaryText (v : Byte) : binaryValue 0 (binaryText v) = some v.toNat := by
  have hstart : 0 = v.toNat / 2 ^ (7 + 1) := (Nat.div_eq_of_lt v.isLt).symm
  rw [hstart, binaryText]
  simp only [List.map_cons, List.map_nil]
  rw [binaryValue_bit v 7, binaryValue_bit v 6, binaryValue_bit v 5, binaryValue_bit v 4, binaryValue_bit v 3,
    binaryValue_bit v 2, binaryValue_bit v 1, binaryValue_bit v 0, Nat.pow_zero, Nat.div_one]
  rfl

theorem mem_binaryText {v : Byte} {c : Char} (h : c ∈ binaryText v) : c = '0' ∨ c = '1' := by
  obtain ⟨k, -, rfl⟩ := List.mem_map.mp h
  cases v.getLsbD k with
  | true => exact .inr rfl
  | false => exact .inl rfl

theorem dropWhile_eq_self_of_forall {α : Type} {p : α → Bool} {l : List α} (h : ∀ c ∈ l, p c = false) :
    l.dropWhile p = l :=
  List.dropWhile_eq_self_iff.mpr fun hl => by simp [h _ (List.getElem_mem hl)]

theorem trimSpace_of_forall {l : List Char} (h : ∀ c ∈ l, c.isWhitespace = false) : trimSpace l = l := by
  rw [trimSpace, dropWhile_eq_self_of_forall h, dropWhile_eq_self_of_forall (by simpa using h), List.reverse_reverse]

theorem retainedText_binaryText (v : Byte) : retainedText (binaryText v) = binaryText v := by
  have hkeep : ∀ c ∈ binaryText v, decide (c ≠ '#') = true ∧ c.isWhitespace = false := by
    intro c hc
    obtain rfl | rfl := mem_binaryText hc <;> decide
  rw [retainedText, List.takeWhile_eq_self_iff.mpr fun c hc => (hkeep c hc).1,
    trimSpace_of_forall fun c hc => (hkeep c hc).2]

theorem parseLine_binaryText (v : Byte) : parseLine (binaryText v) = .ok (some v) := by
  have hne : binaryText v ≠ [] := by simp [binaryText]
  simp [parseLine, retainedText_binaryText, hne, binaryValue_binaryText, byte_toNat_le]

/-- A first line that holds a byte gives the first byte of the image. -/
theorem parseProgram_cons {line rest : List Char} {v : Byte} {img : List Byte} (hline : '\n' ∉ line)
    (hv : parseLine line = .ok (some v)) (himg : parseProgram rest = .ok img) :
    parseProgram (line ++ '\n' :: rest) = .ok (v :: img) := by
  rw [parseProgram] at himg
  rw [parseProgram, splitLines_append_newline hline, parseLines, hv, himg]
  rfl

/-- Settles O52, by induction on the image: each literal is a line of its own, and after the last there is a blank one. -/
theorem programTextReadsBackAsItsImage : Obligations.ProgramTextReadsBackAsItsImage := by
  intro img
  induction img with
  | nil => rfl
  | cons v img ih =>
    have hline : '\n' ∉ binaryText v := fun h => absurd (mem_binaryText h) (by decide)
    rw [List.flatMap_cons, List.append_assoc]
    exact parseProgram_cons hline (parseLine_binaryText v) ih

/-! ## Exit status and debug read -/

/-- Settles O54: the exit status evaluated at each end of a run. -/
theorem exitStatusByTheEndOfTheRun : Obligations.ExitStatusByTheEndOfTheRun := by
  refine ⟨rfl, rfl, fun e he => ?_, fun s => ⟨fun h => ?_, fun h => ?_, fun h => ?_⟩⟩
  · cases e with
    | fileUnreadable => exact absurd rfl he
    | nonBinary | valueTooLarge | imageTooLong => rfl
  all_goals rw [exitStatus, h]

/-- Settles O55: the dump's three bytes are the debug reads at pc, pc + 1 and pc + 2. -/
theorem debugReadShowsTheState : Obligations.DebugReadShowsTheState := by
  refine fun s => ⟨rfl, fun _ => rfl, rfl, fun k hk => ?_⟩
  have hbytes : (debugDump s).bytes = (List.range 3).map fun k => debugMem s (s.pc.toNat + k) := rfl
  rw [hbytes, List.getElem?_map, List.getElem?_range hk]
  rfl

end Sys2Proof.Machine
end
